-- ==== Sys2Proof/Word.lean ====
section
/-! DEFINITION. The types of the block's values: words, bytes, bits, bit sequences, dimensions, coordinates, and the names
of the buffers, channels and pixels they belong to. -/

namespace Sys2Proof

/-- A host-visible register or a command word: XLEN = 32 bits (R10, R21, R70). -/
abbrev Word := BitVec 32

/-- A channel value, the source's `uint8`: CHW = 8 bits (R9, R14, R42). -/
abbrev Byte := BitVec 8

/-- The source's `uint3`, a 3-bit value (R14, R94). -/
abbrev Uint3 := BitVec 3

/-- The source's `bit` (R14). -/
abbrev Bit := BitVec 1

/-- The source's `[8]bit`, most significant bit first: element 0 is bit 7 of the value (R13). -/
abbrev BitSeq := Vector Bit 8

/-- What a dimension register stores: DIMW = 31 bits (R10, R32). -/
abbrev Dim := BitVec 31

/-- One coordinate of a pixel, in 0 .. 2^31 - 1: wide enough for every coordinate below a width or a height (R11, R45). -/
abbrev Coord := BitVec 31

/-- The two image buffers, NBUF = 2; BUF = 0 names IMG0 and BUF = 1 names IMG1 (R10, R33, R75). -/
inductive Buf where
  | img0
  | img1
  deriving DecidableEq, Repr

/-- The NCH = 3 channels of a pixel, in the order c = 0, 1, 2 (R9, R16, R46). -/
inductive Chan where
  | red
  | green
  | blue
  deriving DecidableEq, Repr

/-- A channel triple `(r, g, bl)`, the addressable unit of the pixel space (R16, R40, R41). -/
structure Pixel where
  r : Byte
  g : Byte
  bl : Byte
  deriving DecidableEq, Repr, Inhabited

end Sys2Proof
end

