-- ==== Sys2Proof/Syntax.lean ====
section
/-! DEFINITION. The commands of BPC-1, one constructor for each row of the opcode table (R74). -/

namespace Sys2Proof

/-- The eleven commands (R72, R74). Only REVEAL, GETPIXEL and SETPIXEL take a buffer (R75); every other operand is an
implicit register. -/
inductive Instr where
  | tobits
  | frombits
  | last3
  | top3
  | expand3
  | merge
  | revealch
  | embed
  | reveal (b : Buf)
  | getpixel (b : Buf)
  | setpixel (b : Buf)
  deriving DecidableEq, Repr

end Sys2Proof
end

