-- ==== Sys2Proof/Decode.lean ====
section
/-! DEFINITION. The decoder of a command word (R71, R82), and the encoder, written from the match column of the opcode map
(R74). -/

namespace Sys2Proof

/-- Why a command word is illegal (R76). All three raise the same kind (R82). -/
inductive IllegalWord where
  /-- (a) ZERO is not 0. -/
  | zeroField
  /-- (b) OPC is not one of the eleven values. -/
  | opcode
  /-- (c) BUF = 1 and the command takes no buffer. -/
  | buffer
  deriving DecidableEq, Repr

/-- OPC, bits 7:0 (R71). -/
def opcField (w : Word) : Byte := w.extractLsb' 0 8

/-- BUF, bit 8 (R71). -/
def bufField (w : Word) : Bit := w.extractLsb' 8 1

/-- ZERO, bits 31:9 (R71). -/
def zeroField (w : Word) : BitVec 23 := w.extractLsb' 9 23

/-- The buffer that a BUF bit names (R75). -/
def bufOfBit (b : Bit) : Buf := if b = 1 then .img1 else .img0

/-- Whether a command takes a buffer; in one that takes none BUF must be 0 (R71, R75). -/
def takesBuf (i : Instr) : Bool :=
  match i with
  | .tobits => false
  | .frombits => false
  | .last3 => false
  | .top3 => false
  | .expand3 => false
  | .merge => false
  | .revealch => false
  | .embed => false
  | .reveal _ => true
  | .getpixel _ => true
  | .setpixel _ => true

/-- The command that an opcode selects, on buffer `b` where it takes one (R74). -/
def commandAt (opc : Byte) (b : Buf) : Option Instr :=
  if opc = 0x01 then some .tobits
  else if opc = 0x02 then some .frombits
  else if opc = 0x03 then some .last3
  else if opc = 0x04 then some .top3
  else if opc = 0x05 then some .expand3
  else if opc = 0x06 then some .merge
  else if opc = 0x07 then some .revealch
  else if opc = 0x10 then some .embed
  else if opc = 0x11 then some (.reveal b)
  else if opc = 0x20 then some (.getpixel b)
  else if opc = 0x21 then some (.setpixel b)
  else none

/-- The decoding algorithm (R82): every word gets exactly one verdict. -/
def decode (w : Word) : Except IllegalWord Instr :=
  if zeroField w ≠ 0 then .error .zeroField
  else
    match commandAt (opcField w) (bufOfBit (bufField w)) with
    | none => .error .opcode
    | some i => if bufField w = 1 ∧ takesBuf i = false then .error .buffer else .ok i

/-- The match column of the opcode map (R74). -/
def rowMatch (i : Instr) : Word :=
  match i with
  | .tobits => 0x00000001
  | .frombits => 0x00000002
  | .last3 => 0x00000003
  | .top3 => 0x00000004
  | .expand3 => 0x00000005
  | .merge => 0x00000006
  | .revealch => 0x00000007
  | .embed => 0x00000010
  | .reveal _ => 0x00000011
  | .getpixel _ => 0x00000020
  | .setpixel _ => 0x00000021

/-- The mask column of the opcode map (R74). -/
def rowMask (i : Instr) : Word :=
  match i with
  | .tobits => 0xFFFFFFFF
  | .frombits => 0xFFFFFFFF
  | .last3 => 0xFFFFFFFF
  | .top3 => 0xFFFFFFFF
  | .expand3 => 0xFFFFFFFF
  | .merge => 0xFFFFFFFF
  | .revealch => 0xFFFFFFFF
  | .embed => 0xFFFFFFFF
  | .reveal _ => 0xFFFFFEFF
  | .getpixel _ => 0xFFFFFEFF
  | .setpixel _ => 0xFFFFFEFF

/-- The BUF bit in its place in the word (R71, R75). -/
def bufBits (b : Buf) : Word :=
  match b with
  | .img0 => 0x00000000
  | .img1 => 0x00000100

/-- The bits of a command's operand field: BUF where it takes a buffer, none otherwise (R75). -/
def operandBits (i : Instr) : Word :=
  match i with
  | .tobits => 0
  | .frombits => 0
  | .last3 => 0
  | .top3 => 0
  | .expand3 => 0
  | .merge => 0
  | .revealch => 0
  | .embed => 0
  | .reveal b => bufBits b
  | .getpixel b => bufBits b
  | .setpixel b => bufBits b

/-- The command word of a command (R74). -/
def encode (i : Instr) : Word := rowMatch i ||| operandBits i

/-- What the decoder reads from the `nbits` low bits of `w`, numbered as the opcode table numbers them. A command is one
32-bit word (R70), so a number with a bit above bit 31 is no command word. -/
def decodeTableWord (nbits w : Nat) : Option Instr :=
  let v := w % 2 ^ nbits
  if v < 2 ^ 32 then (decode (BitVec.ofNat 32 v)).toOption else none

end Sys2Proof
end

