-- ==== Sys2Proof/Config.lean ====
section
/-! DEFINITION. The constants of the block (R9, R10) and its two free parameters (R11). -/

namespace Sys2Proof.Config

/-- CHW: bits per channel value (R9). -/
def chw : Nat := 8
/-- NCH: channels per pixel (R9). -/
def nch : Nat := 3
/-- KEEP: cover bits kept by `embed` (R9). -/
def keep : Nat := 5
/-- PAYLOAD: hidden bits carried (R9). -/
def payload : Nat := 3
/-- OFFSET: the constant `expandTop3` adds (R9, R132). -/
def offset : Nat := 16
/-- XLEN: bits of a register and of the command word (R10). -/
def xlen : Nat := 32
/-- NREG: word registers (R10). -/
def nreg : Nat := 16
/-- NBUF: image buffers (R10). -/
def nbuf : Nat := 2
/-- DIMW: bits of a dimension register that hold a value (R10). -/
def dimw : Nat := 31

/-- PIX_INIT (R11, R52): the content of buffer b at column x, row y before anything has written it.
A free value: it has no body, so a claim about it holds whatever it is (log 4). -/
opaque pixInit : Buf → Coord → Coord → Pixel

/-- PIX_REDRAW (R11, R53): its n-th draw, a content of the same type as PIX_INIT.
A free value for each n (log 4). -/
opaque pixRedraw : Nat → Buf → Coord → Coord → Pixel

end Sys2Proof.Config
end

