-- ==== Sys2Proof/Machine/State.lean ====
section
/-! DEFINITION. The state of the block: its registers (R21), its pixel store (R33), and the model's own fields for HOST's
operations (log 1, log 3) and for the free contents of the pixel store (log 4). -/

namespace Sys2Proof.Machine

/-- The sixteen names of the register map, in the order of their offsets (R21). -/
inductive Reg where
  | cmd | status | arg0 | arg1 | arg2 | argx | argy | res0 | res1 | res2 | bits | reserved | w0 | h0 | w1 | h1
  deriving DecidableEq, Repr

/-- One operation of HOST: the unit of a step (R20, R155, R156, R159). An access names a byte offset and a width in bits.
Only some pairs are operations of the interface (R47), and the others are refused (log 7). -/
inductive HostOp where
  /-- HostRead(off) (R156). -/
  | read (off width : Nat)
  /-- HostWrite(off, w) (R155). -/
  | write (off width : Nat) (w : Word)
  /-- Reset (R200). -/
  | reset
  deriving DecidableEq, Repr

/-- STATUS (R23): CODE, bits 3:0, and STK, bit 8. Its other bits read 0 and are not storage (log 13). -/
structure Status where
  code : BitVec 4
  stk : Bool
  deriving DecidableEq, Repr

/-- Which unspecified content an unwritten pixel of a buffer holds: PIX_INIT, or the n-th draw of PIX_REDRAW (R52, R53). -/
inductive Fill where
  | init
  | redraw (n : Nat)
  deriving DecidableEq, Repr

/-- The bytes of one buffer that have been written since its last draw, by cell number, strictly rising (log 5). -/
abbrev Memory := List Host.Cell

/-- One image buffer: the bytes written, and what every other byte reads as. -/
structure Buffer where
  fill : Fill
  cells : Memory
  deriving DecidableEq, Repr

/-- The whole state. -/
structure State where
  /-- STATUS, x[1] (R23). -/
  status : Status
  /-- ARG0, x[2] (R27). -/
  arg0 : Word
  /-- ARG1, x[3] (R27). -/
  arg1 : Word
  /-- ARG2, x[4] (R27). -/
  arg2 : Word
  /-- ARGX, x[5] (R28). -/
  argx : Word
  /-- ARGY, x[6] (R28). -/
  argy : Word
  /-- RES0, x[7] (R29). -/
  res0 : Word
  /-- RES1, x[8] (R29). -/
  res1 : Word
  /-- RES2, x[9] (R29). -/
  res2 : Word
  /-- BITS, x[10] (R30). -/
  bits : BitSeq
  /-- W0, x[12] (R32). -/
  w0 : Dim
  /-- H0, x[13] (R32). -/
  h0 : Dim
  /-- W1, x[14] (R32). -/
  w1 : Dim
  /-- H1, x[15] (R32). -/
  h1 : Dim
  /-- IMG0 (R33). -/
  img0 : Buffer
  /-- IMG1 (R33). -/
  img1 : Buffer
  /-- The model's own: the draws of PIX_REDRAW taken so far (log 4). -/
  redraws : Nat
  /-- The model's own: HOST's operations still to come, the next one first (log 1). -/
  pending : List HostOp
  /-- The model's own: the words HOST's reads have returned, the latest first (log 3). -/
  returned : List Word
  deriving DecidableEq, Repr

/-- Why the machine stops with a fault. There is no such reason: every error kind of the block is reported in STATUS and
control goes back to HOST (R178, R182), so no step ever answers a fault (log 8). -/
inductive Fault where
  deriving DecidableEq, Repr

/-- Why a step has no meaning. -/
inductive Refusal where
  /-- A command with no meaning yet, by its mnemonic. Raised only by a refused arm of `exec`. No arm is refused. Safe. -/
  | notModelled (mnemonic : String)
  /-- HOST accessed byte offset `off`, which is not a multiple of 4 in 0x00 .. 0x3C: "the model gives it no step (refused)"
  (R47). Raised by the register access of `hostOp`. Safe. -/
  | noSuchRegister (off : Nat)
  /-- HOST accessed `width` bits instead of a whole 32-bit word: "the model gives it no step (refused)" (R47). Raised by the
  register access of `hostOp`. Safe. -/
  | notAWord (width : Nat)
  deriving DecidableEq, Repr

/-- The state right after a reset at power-up (R37, R203): every register 0, the pixel store PIX_INIT, and no HOST operation
in sight. -/
def State.reset : State where
  status := ⟨0, false⟩
  arg0 := 0
  arg1 := 0
  arg2 := 0
  argx := 0
  argy := 0
  res0 := 0
  res1 := 0
  res2 := 0
  bits := #v[0, 0, 0, 0, 0, 0, 0, 0]
  w0 := 0
  h0 := 0
  w1 := 0
  h1 := 0
  img0 := ⟨.init, []⟩
  img1 := ⟨.init, []⟩
  redraws := 0
  pending := []
  returned := []

end Sys2Proof.Machine
end

