-- ==== Sys2Proof/Machine/Flags.lean ====
section
/-! DEFINITION. STATUS: the error kinds and their codes, the word HOST reads, and what a success and a failure write there. -/

namespace Sys2Proof.Machine

/-- The five error kinds (R170). None carries a value. -/
inductive Kind where
  | outOfBounds
  | invalidChannelValue
  | dimensionMismatch
  | illegalCommand
  | invalidOperand
  deriving DecidableEq, Repr

/-- STATUS.CODE of each kind (R24, R170). Code 0 is OK. -/
def Kind.code (k : Kind) : BitVec 4 :=
  match k with
  | .outOfBounds => 1
  | .invalidChannelValue => 2
  | .dimensionMismatch => 3
  | .illegalCommand => 4
  | .invalidOperand => 5

/-- STATUS as HOST reads it: CODE in bits 3:0, STK in bit 8, every other bit 0 (R23). -/
def statusWord (st : Status) : Word :=
  st.code.setWidth 32 ||| (if st.stk then 0x00000100 else 0)

/-- `STATUS.CODE <- 0`: a success leaves STK alone (R17, R25). -/
def statusOnSuccess (st : Status) : Status := ⟨0, st.stk⟩

/-- `STATUS.CODE <- k; STATUS.STK <- 1` (R178), whatever STATUS was. -/
def statusOnFailure (k : Kind) : Status := ⟨k.code, true⟩

end Sys2Proof.Machine
end

