-- ==== Sys2Proof/Machine/Functions.lean ====
section
/-! DEFINITION. The pure functions of BitOps and Codec (R90 to R94, R110, R112, R125, R127). They compute on bytes, which R95
allows: no result overflows. -/

namespace Sys2Proof.Machine

/-- Bit k of n: `floor(n / 2^k) mod 2` (R12). -/
def bitOf (n : Byte) (k : Nat) : Bit := BitVec.ofNat 1 ((n.toNat >>> k) % 2)

/-- The bit-plane decomposer: `s[k] = (n >> (7 - k)) mod 2` (R90). -/
def toBits (n : Byte) : BitSeq :=
  #v[bitOf n 7, bitOf n 6, bitOf n 5, bitOf n 4, bitOf n 3, bitOf n 2, bitOf n 1, bitOf n 0]

/-- The bit-plane recomposer (R91). -/
def fromBits (s : BitSeq) : Byte :=
  BitVec.ofNat 8
    (128 * s[0].toNat + 64 * s[1].toNat + 32 * s[2].toNat + 16 * s[3].toNat +
      8 * s[4].toNat + 4 * s[5].toNat + 2 * s[6].toNat + s[7].toNat)

/-- The value of the three least significant bits (R92). -/
def last3BitsValue (n : Byte) : Uint3 :=
  let s := toBits n
  BitVec.ofNat 3 (4 * s[5].toNat + 2 * s[6].toNat + s[7].toNat)

/-- The value of the three most significant bits (R93). -/
def top3Bits (n : Byte) : Uint3 :=
  let s := toBits n
  BitVec.ofNat 3 (4 * s[0].toNat + 2 * s[1].toNat + s[2].toNat)

/-- `16 + 32*v0 + 64*v1 + 128*v2` with `v2 v1 v0` the bits of v (R94). -/
def expandTop3 (v : Uint3) : Byte :=
  let v2 := (v.toNat >>> 2) % 2
  let v1 := (v.toNat >>> 1) % 2
  let v0 := v.toNat % 2
  BitVec.ofNat 8 (Config.offset + 32 * v0 + 64 * v1 + 128 * v2)

/-- One channel of `embed`: the cover's bits 7..3, then the hidden value's bits 7, 6, 5 (R110). -/
def mergeChannel (c h : Byte) : Byte :=
  let cb := toBits c
  let hb := toBits h
  fromBits #v[cb[0], cb[1], cb[2], cb[3], cb[4], hb[0], hb[1], hb[2]]

/-- One channel of `reveal` (R125). -/
def revealChannel (n : Byte) : Byte := expandTop3 (last3BitsValue n)

/-- The content of an image, by column and row (R41). It is used for the value of a command, never stored. -/
abbrev Image := Coord → Coord → Pixel

/-- `mergeChannel` on each of the three lanes of a pixel, independently (R115). -/
def mergePixel (c h : Pixel) : Pixel :=
  ⟨mergeChannel c.r h.r, mergeChannel c.g h.g, mergeChannel c.bl h.bl⟩

/-- `revealChannel` on each of the three lanes of a pixel (R127). -/
def revealPixel (p : Pixel) : Pixel :=
  ⟨revealChannel p.r, revealChannel p.g, revealChannel p.bl⟩

/-- `embedImage(C, Hd)` (R112). -/
def embedImage (cover hidden : Image) : Image := fun x y => mergePixel (cover x y) (hidden x y)

/-- `revealImage(I)` (R127). -/
def revealImage (image : Image) : Image := fun x y => revealPixel (image x y)

end Sys2Proof.Machine
end

