-- ==== Sys2Proof/Machine/Ops.lean ====
section
/-! DEFINITION. The named operations over the registers and the pixel store, the end of a command and the taking of an
exception. -/

namespace Sys2Proof.Machine

/-! The pixel store. -/

/-- A channel's place in a pixel: c = 0, 1, 2 (R16, R46). -/
def chanIndex (c : Chan) : Nat :=
  match c with
  | .red => 0
  | .green => 1
  | .blue => 2

/-- One channel of a pixel. -/
def chanOf (p : Pixel) (c : Chan) : Byte :=
  match c with
  | .red => p.r
  | .green => p.g
  | .blue => p.bl

/-- The number under which the model lists the byte `PIX[b][x][y][c]` of a buffer. It is the model's own and cannot be
observed: the spec fixes no layout (R44, log 5). -/
def cellKey (x y : Coord) (c : Chan) : Nat :=
  (y.toNat * 2 ^ 31 + x.toNat) * 3 + chanIndex c

/-- One more than the largest cell number. -/
def cellSpace : Nat := 2 ^ 62 * 3

/-- The canonical form of a buffer's bytes: cell numbers strictly rising, each of them the number of some byte. An unlisted
cell has no stored byte, so no entry says what an unlisted cell would say (log 5). -/
abbrev Memory.wf (m : Memory) : Prop :=
  m.Pairwise (fun a b => a.1 < b.1) ∧ ∀ a ∈ m, a.1 < cellSpace

/-- The byte stored under a cell number, none for a cell that nothing has written since the buffer's last draw. -/
def Memory.cellAt (m : Memory) (k : Nat) : Option Byte :=
  match m with
  | [] => none
  | (k', v) :: rest => if k' = k then some v else Memory.cellAt rest k

/-- Puts cell `k` into a rising list, in the place of the cell of that number where there is one, and hands the cells
after it to `rest`. -/
def Memory.splice (k : Nat) (v : Byte) (rest : Memory → Memory) : Memory → Memory
  | [] => (k, v) :: rest []
  | (k', v') :: m =>
    if k' < k then (k', v') :: Memory.splice k v rest m
    else if k' = k then (k, v) :: rest m
    else (k, v) :: rest ((k', v') :: m)

/-- Writes a rising list of cells over a list of cells, all at once. -/
def Memory.overlay : Memory → Memory → Memory
  | [], old => old
  | (k, v) :: new, old => Memory.splice k v (Memory.overlay new) old

/-- The unspecified content of a buffer, where nothing has written it (R52, R53). -/
def fillPixel (f : Fill) (b : Buf) (x y : Coord) : Pixel :=
  match f with
  | .init => Config.pixInit b x y
  | .redraw n => Config.pixRedraw n b x y

/-- IMG[b] (R33). -/
def buffer (s : State) (b : Buf) : Buffer :=
  match b with
  | .img0 => s.img0
  | .img1 => s.img1

/-- Replaces IMG[b] and nothing else: the two buffers are distinct storage (R55). -/
def setBuffer (b : Buf) (v : Buffer) (s : State) : State :=
  match b with
  | .img0 => { s with img0 := v }
  | .img1 => { s with img1 := v }

/-- W[b] (R15, R32). -/
def width (s : State) (b : Buf) : Dim :=
  match b with
  | .img0 => s.w0
  | .img1 => s.w1

/-- H[b] (R15, R32). -/
def height (s : State) (b : Buf) : Dim :=
  match b with
  | .img0 => s.h0
  | .img1 => s.h1

/-- The byte `PIX[b][x][y][c]` (R16, R33): the byte stored there, else the buffer's unspecified content (R52). -/
def byteAt (s : State) (b : Buf) (x y : Coord) (c : Chan) : Byte :=
  match (buffer s b).cells.cellAt (cellKey x y c) with
  | some v => v
  | none => chanOf (fillPixel (buffer s b).fill b x y) c

/-- `MemRead((b,x,y), 3)` (R16). -/
def readPixel (s : State) (b : Buf) (x y : Coord) : Pixel :=
  ⟨byteAt s b x y .red, byteAt s b x y .green, byteAt s b x y .blue⟩

/-- The image a buffer holds (R33, R41). -/
def imageOf (s : State) (b : Buf) : Image := fun x y => readPixel s b x y

/-- The three cells of a pixel. -/
def pixelCells (x y : Coord) (p : Pixel) : Memory :=
  [(cellKey x y .red, p.r), (cellKey x y .green, p.g), (cellKey x y .blue, p.bl)]

/-- Writes a rising list of cells into a buffer. -/
def writeCells (b : Buf) (new : Memory) (s : State) : State :=
  setBuffer b { buffer s b with cells := Memory.overlay new (buffer s b).cells } s

/-- `MemWrite((b,x,y), 3, p)` (R16). -/
def writePixel (b : Buf) (x y : Coord) (p : Pixel) (s : State) : State :=
  writeCells b (pixelCells x y p) s

/-- The cells of an image of width `w` and height `h` (R41). -/
def imageCells (w h : Dim) (f : Image) : Memory :=
  (List.range h.toNat).flatMap fun y =>
    (List.range w.toNat).flatMap fun x =>
      pixelCells (BitVec.ofNat 31 x) (BitVec.ofNat 31 y) (f (BitVec.ofNat 31 x) (BitVec.ofNat 31 y))

/-- `IMG[b] <- f` on the whole of the buffer's domain, all coordinates at once (R58, R113, R128). -/
def writeImage (b : Buf) (f : Image) (s : State) : State :=
  writeCells b (imageCells (width s b) (height s b) f) s

/-- A dimension write's side effect: the whole content of the buffer becomes a fresh draw of PIX_REDRAW (R53). -/
def redrawBuffer (b : Buf) (s : State) : State :=
  setBuffer b ⟨.redraw s.redraws, []⟩ { s with redraws := s.redraws + 1 }

/-! The registers. -/

/-- `zext_32` (R14). -/
def zext32 {n : Nat} (v : BitVec n) : Word := v.setWidth 32

/-- `RES0 <- zext_32(v)` (R29). -/
def writeRes0 {n : Nat} (v : BitVec n) (s : State) : State := { s with res0 := zext32 v }

/-- `RES0 <- zext_32(r); RES1 <- zext_32(g); RES2 <- zext_32(bl)` (R29, R140). -/
def writeRes (p : Pixel) (s : State) : State :=
  { s with res0 := zext32 p.r, res1 := zext32 p.g, res2 := zext32 p.bl }

/-- `BITS[k] <- v[k]` for k = 0 .. 7 (R30). -/
def writeBits (v : BitSeq) (s : State) : State := { s with bits := v }

/-! The end of a command. -/

/-- The end of a command's pseudocode without a `raise`: `STATUS.CODE <- 0` (R17). -/
def complete (s : State) : State := { s with status := statusOnSuccess s.status }

/-- Taking an exception (R178): STATUS takes the kind's code and STK is set, nothing else changes, and control goes back to
HOST. There is no vector, no saved state and no mode, and so no return from an exception: HOST may issue any command next
(R181). -/
def raise (k : Kind) (s : State) : State := { s with status := statusOnFailure k }

/-- Runs a command's pseudocode on `s`: `body` is the state at its end, or the kind it raised first. A command that raises
has no effect but the exception's (R17, R158, R178). -/
def finish (s : State) (body : Except Kind State) : Host.Outcome State Fault Refusal :=
  match body with
  | .ok t => .next (complete t)
  | .error k => .next (raise k s)

end Sys2Proof.Machine
end

