-- ==== Sys2Proof/Machine/Operands.lean ====
section
/-! DEFINITION. Operands: how a command reads an operand register and which values it accepts (R14, R45, R73, R96). -/

namespace Sys2Proof.Machine

/-- `sint(w)`: the word read as a two's-complement signed integer (R14). -/
def sint (w : Word) : Int :=
  if w.toNat < 2 ^ 31 then (w.toNat : Int) else (w.toNat : Int) - 2 ^ 32

/-- `validChannel(a)`: a is in [0,255] (R96). -/
abbrev validChannel (a : Int) : Prop := 0 ≤ a ∧ a ≤ 255

/-- A channel operand: the byte a register holds, or InvalidChannelValue (R96). Nothing is clamped or truncated. -/
def channel (w : Word) : Except Kind Byte :=
  if validChannel (sint w) then .ok (BitVec.ofInt 8 (sint w)) else .error .invalidChannelValue

/-- The 3-bit operand of EXPAND3: a channel operand above 7 raises InvalidOperand (R101). -/
def threeBits (n : Byte) : Except Kind Uint3 :=
  if n.toNat > 7 then .error .invalidOperand else .ok (BitVec.ofNat 3 n.toNat)

/-- `inBounds(b, x, y)`, on signed integers (R45). -/
abbrev inBounds (s : State) (b : Buf) (x y : Int) : Prop :=
  0 ≤ x ∧ x < (width s b).toNat ∧ 0 ≤ y ∧ y < (height s b).toNat

/-- The effective address of a pixel command on buffer b: `(sint(ARGX), sint(ARGY))`, or OutOfBounds (R140). -/
def pixelAddress (b : Buf) (s : State) : Except Kind (Coord × Coord) :=
  if inBounds s b (sint s.argx) (sint s.argy) then
    .ok (BitVec.ofInt 31 (sint s.argx), BitVec.ofInt 31 (sint s.argy))
  else .error .outOfBounds

/-- The three components of SETPIXEL, checked in the order ARG0, ARG1, ARG2 (R141, R177). -/
def components (s : State) : Except Kind Pixel := do
  let r ← channel s.arg0
  let g ← channel s.arg1
  let bl ← channel s.arg2
  return ⟨r, g, bl⟩

/-- The dimension check of EMBED (R113, R173). -/
def sameDimensions (s : State) : Except Kind Unit :=
  if s.w0 ≠ s.w1 ∨ s.h0 ≠ s.h1 then .error .dimensionMismatch else .ok ()

end Sys2Proof.Machine
end

