-- ==== Sys2Proof/Machine/BitOps.lean ====
section
/-! DEFINITION. The meanings of TOBITS, FROMBITS, LAST3, TOP3 and EXPAND3 (R97 to R101). -/

namespace Sys2Proof.Machine

/-- TOBITS (R97). -/
def execTobits (s : State) : Host.Outcome State Fault Refusal :=
  finish s do
    let n ← channel s.arg0
    return writeBits (toBits n) s

/-- FROMBITS (R98). It cannot fail. -/
def execFrombits (s : State) : Host.Outcome State Fault Refusal :=
  finish s (.ok (writeRes0 (fromBits s.bits) s))

/-- LAST3 (R99). -/
def execLast3 (s : State) : Host.Outcome State Fault Refusal :=
  finish s do
    let n ← channel s.arg0
    return writeRes0 (last3BitsValue n) s

/-- TOP3 (R100). -/
def execTop3 (s : State) : Host.Outcome State Fault Refusal :=
  finish s do
    let n ← channel s.arg0
    return writeRes0 (top3Bits n) s

/-- EXPAND3 (R101): InvalidChannelValue is checked first. -/
def execExpand3 (s : State) : Host.Outcome State Fault Refusal :=
  finish s do
    let n ← channel s.arg0
    let v ← threeBits n
    return writeRes0 (expandTop3 v) s

end Sys2Proof.Machine
end

