-- ==== Sys2Proof/Machine/CodecEmbed.lean ====
section
/-! DEFINITION. The meanings of MERGE and EMBED (R111, R113). -/

namespace Sys2Proof.Machine

/-- MERGE (R111). It does not write BITS. -/
def execMerge (s : State) : Host.Outcome State Fault Refusal :=
  finish s do
    let c ← channel s.arg0
    let h ← channel s.arg1
    return writeRes0 (mergeChannel c h) s

/-- EMBED (R113): `IMG0 <- embedImage(IMG0, IMG1)` after the dimension check, as one step. -/
def execEmbed (s : State) : Host.Outcome State Fault Refusal :=
  finish s do
    sameDimensions s
    return writeImage .img0 (embedImage (imageOf s .img0) (imageOf s .img1)) s

end Sys2Proof.Machine
end

