-- ==== Sys2Proof/Machine/CodecReveal.lean ====
section
/-! DEFINITION. The meanings of REVEALCH and REVEAL (R126, R128). -/

namespace Sys2Proof.Machine

/-- REVEALCH (R126). -/
def execRevealch (s : State) : Host.Outcome State Fault Refusal :=
  finish s do
    let n ← channel s.arg0
    return writeRes0 (revealChannel n) s

/-- REVEAL (R128): `IMG[b] <- revealImage(IMG[b])`, as one step. It cannot fail. -/
def execReveal (b : Buf) (s : State) : Host.Outcome State Fault Refusal :=
  finish s (.ok (writeImage b (revealImage (imageOf s b)) s))

end Sys2Proof.Machine
end

