-- ==== Sys2Proof/Machine/PixelAccess.lean ====
section
/-! DEFINITION. The meanings of GETPIXEL and SETPIXEL (R140, R141). -/

namespace Sys2Proof.Machine

/-- GETPIXEL (R140). -/
def execGetpixel (b : Buf) (s : State) : Host.Outcome State Fault Refusal :=
  finish s do
    let a ← pixelAddress b s
    return writeRes (readPixel s b a.1 a.2) s

/-- SETPIXEL (R141): the coordinate is checked before the components, and everything before the write (R177). -/
def execSetpixel (b : Buf) (s : State) : Host.Outcome State Fault Refusal :=
  finish s do
    let a ← pixelAddress b s
    let p ← components s
    return writePixel b a.1 a.2 p s

end Sys2Proof.Machine
end

