-- ==== Sys2Proof/Machine/Dispatch.lean ====
section
/-! DEFINITION. The meaning of each command, one arm for each constructor. -/

namespace Sys2Proof.Machine

def exec (i : Instr) (s : State) : Host.Outcome State Fault Refusal :=
  match i with
  | .tobits => Sys2Proof.Machine.execTobits s
  | .frombits => Sys2Proof.Machine.execFrombits s
  | .last3 => Sys2Proof.Machine.execLast3 s
  | .top3 => Sys2Proof.Machine.execTop3 s
  | .expand3 => Sys2Proof.Machine.execExpand3 s
  | .merge => Sys2Proof.Machine.execMerge s
  | .revealch => Sys2Proof.Machine.execRevealch s
  | .embed => Sys2Proof.Machine.execEmbed s
  | .reveal b => Sys2Proof.Machine.execReveal b s
  | .getpixel b => Sys2Proof.Machine.execGetpixel b s
  | .setpixel b => Sys2Proof.Machine.execSetpixel b s

end Sys2Proof.Machine
end

