-- ==== Sys2Proof/Machine/HostPort.lean ====
section
/-! DEFINITION. The operations of HOST: register reads, register writes, the command issue that a write to CMD is, and
reset (R155 to R159, R200). -/

namespace Sys2Proof.Machine

/-- The register at a byte offset: x[i] is at 4*i (R21). None at any other offset (R47, R50). -/
def regAt (off : Nat) : Option Reg :=
  match off with
  | 0x00 => some .cmd
  | 0x04 => some .status
  | 0x08 => some .arg0
  | 0x0C => some .arg1
  | 0x10 => some .arg2
  | 0x14 => some .argx
  | 0x18 => some .argy
  | 0x1C => some .res0
  | 0x20 => some .res1
  | 0x24 => some .res2
  | 0x28 => some .bits
  | 0x2C => some .reserved
  | 0x30 => some .w0
  | 0x34 => some .h0
  | 0x38 => some .w1
  | 0x3C => some .h1
  | _ => none

/-- The register an access names, or why it is no operation of the interface (R47). -/
def access (off width : Nat) : Except Refusal Reg :=
  match regAt off with
  | none => .error (.noSuchRegister off)
  | some r => if width = 32 then .ok r else .error (.notAWord width)

/-- The word a HOST read of a register returns (R156). -/
def readReg (r : Reg) (s : State) : Word :=
  match r with
  | .cmd => 0
  | .status => statusWord s.status
  | .arg0 => s.arg0
  | .arg1 => s.arg1
  | .arg2 => s.arg2
  | .argx => s.argx
  | .argy => s.argy
  | .res0 => s.res0
  | .res1 => s.res1
  | .res2 => s.res2
  | .bits => zext32 (fromBits s.bits)
  | .reserved => 0
  | .w0 => zext32 s.w0
  | .h0 => zext32 s.h0
  | .w1 => zext32 s.w1
  | .h1 => zext32 s.h1

/-- HostRead: the word goes to HOST, and no state of the block changes (R156). -/
def hostRead (r : Reg) (s : State) : State := { s with returned := readReg r s :: s.returned }

/-- The bits a write to BITS stores: `BITS[k] <- bit (7-k) of w`, w[31:8] ignored (R30, R155). -/
def bitsOfWord (w : Word) : BitSeq := toBits (w.setWidth 8)

/-- The value a write to a dimension register stores: w[30:0] (R32, R155). -/
def dimOfWord (w : Word) : Dim := w.setWidth 31

/-- Command issue (R158): the word is decoded, and the command runs whole. An illegal word raises IllegalCommand (R174). -/
def issue (w : Word) (s : State) : Host.Outcome State Fault Refusal :=
  match decode w with
  | .ok i => exec i s
  | .error _ => .next (raise .illegalCommand s)

/-- HostWrite (R155). -/
def hostWrite (r : Reg) (w : Word) (s : State) : Host.Outcome State Fault Refusal :=
  match r with
  | .cmd => issue w s
  | .status => .next s
  | .arg0 => .next { s with arg0 := w }
  | .arg1 => .next { s with arg1 := w }
  | .arg2 => .next { s with arg2 := w }
  | .argx => .next { s with argx := w }
  | .argy => .next { s with argy := w }
  | .res0 => .next s
  | .res1 => .next s
  | .res2 => .next s
  | .bits => .next (writeBits (bitsOfWord w) s)
  | .reserved => .next s
  | .w0 => .next (redrawBuffer .img0 { s with w0 := dimOfWord w })
  | .h0 => .next (redrawBuffer .img0 { s with h0 := dimOfWord w })
  | .w1 => .next (redrawBuffer .img1 { s with w1 := dimOfWord w })
  | .h1 => .next (redrawBuffer .img1 { s with h1 := dimOfWord w })

/-- Reset (R200): every register takes its value of R37, and the pixel store is neither read nor written (R202). -/
def hostReset (s : State) : State :=
  { s with
    status := ⟨0, false⟩
    arg0 := 0
    arg1 := 0
    arg2 := 0
    argx := 0
    argy := 0
    res0 := 0
    res1 := 0
    res2 := 0
    bits := #v[0, 0, 0, 0, 0, 0, 0, 0]
    w0 := 0
    h0 := 0
    w1 := 0
    h1 := 0 }

/-- One operation of HOST (R20). -/
def hostOp (op : HostOp) (s : State) : Host.Outcome State Fault Refusal :=
  match op with
  | .read off width =>
    match access off width with
    | .ok r => .next (hostRead r s)
    | .error e => .refused e
  | .write off width w =>
    match access off width with
    | .ok r => hostWrite r w s
    | .error e => .refused e
  | .reset => .next (hostReset s)

/-- A HOST write of a command word to CMD. -/
def issueOp (w : Word) : HostOp := .write 0x00 32 w

end Sys2Proof.Machine
end

