-- ==== Sys2Proof/Machine/Step.lean ====
section
/-! DEFINITION. One step: HOST's next operation (R20). -/

namespace Sys2Proof.Machine

/-- Takes HOST's next operation and performs it, a command whole (R20, R158). With none pending ENGINE does nothing
(R201, log 2). -/
def step (s : State) : Host.Outcome State Fault Refusal :=
  match s.pending with
  | [] => .next s
  | op :: rest => hostOp op { s with pending := rest }

/-- `s` with the command word in the low `nbits` bits of `w` as HOST's next operation, a write to CMD: where this machine
takes its next command from (R22, R70, log 1). -/
def State.withFetchWord (s : State) (nbits w : Nat) : State :=
  { s with pending := issueOp (BitVec.ofNat 32 (w % 2 ^ nbits)) :: s.pending }

end Sys2Proof.Machine
end

