-- ==== Sys2Proof/Machine/Script.lean ====
section
/-! DEFINITION. The spec's script notation and its pseudo-instructions, as lists of HOST operations (R78, R79, R80). -/

namespace Sys2Proof.Machine

/-- The byte offset of a register (R21). -/
def regOffset (r : Reg) : Nat :=
  match r with
  | .cmd => 0x00
  | .status => 0x04
  | .arg0 => 0x08
  | .arg1 => 0x0C
  | .arg2 => 0x10
  | .argx => 0x14
  | .argy => 0x18
  | .res0 => 0x1C
  | .res1 => 0x20
  | .res2 => 0x24
  | .bits => 0x28
  | .reserved => 0x2C
  | .w0 => 0x30
  | .h0 => 0x34
  | .w1 => 0x38
  | .h1 => 0x3C

/-- `wr REG, value`: a negative number stands for its 32-bit two's complement (R78). -/
def wr (r : Reg) (v : Int) : HostOp := .write (regOffset r) 32 (BitVec.ofInt 32 v)

/-- `rd REG` (R78). -/
def rd (r : Reg) : HostOp := .read (regOffset r) 32

/-- `cmd MNEMONIC` and `cmd MNEMONIC b` (R78). -/
def cmd (i : Instr) : HostOp := issueOp (encode i)

/-- The dimension registers of a buffer, W[b] and H[b] (R15). -/
def widthReg (b : Buf) : Reg :=
  match b with
  | .img0 => .w0
  | .img1 => .w1

/-- H[b] (R15). -/
def heightReg (b : Buf) : Reg :=
  match b with
  | .img0 => .h0
  | .img1 => .h1

/-- `tobits n` (R79). -/
def psTobits (n : Int) : List HostOp := [wr .arg0 n, cmd .tobits]

/-- `last3 n` (R79). -/
def psLast3 (n : Int) : List HostOp := [wr .arg0 n, cmd .last3]

/-- `top3 n` (R79). -/
def psTop3 (n : Int) : List HostOp := [wr .arg0 n, cmd .top3]

/-- `expand3 v` (R79). -/
def psExpand3 (v : Int) : List HostOp := [wr .arg0 v, cmd .expand3]

/-- `merge c, h` (R79). -/
def psMerge (c h : Int) : List HostOp := [wr .arg0 c, wr .arg1 h, cmd .merge]

/-- `revealch n` (R79). -/
def psRevealch (n : Int) : List HostOp := [wr .arg0 n, cmd .revealch]

/-- `frombits w` (R79). -/
def psFrombits (w : Int) : List HostOp := [wr .bits w, cmd .frombits]

/-- `dims b, w, h` (R79). -/
def psDims (b : Buf) (w h : Int) : List HostOp := [wr (widthReg b) w, wr (heightReg b) h]

/-- `setpix b, x, y, r, g, bl` (R79). -/
def psSetpix (b : Buf) (x y r g bl : Int) : List HostOp :=
  [wr .argx x, wr .argy y, wr .arg0 r, wr .arg1 g, wr .arg2 bl, cmd (.setpixel b)]

/-- `getpix b, x, y` (R79). -/
def psGetpix (b : Buf) (x y : Int) : List HostOp := [wr .argx x, wr .argy y, cmd (.getpixel b)]

/-- `width b` (R79, R157). -/
def psWidth (b : Buf) : List HostOp := [rd (widthReg b)]

/-- `height b` (R79, R157). -/
def psHeight (b : Buf) : List HostOp := [rd (heightReg b)]

end Sys2Proof.Machine
end

