-- ==== Sys2Proof/WellFormed.lean ====
section
/-! DEFINITION. Which commands and which HOST operations are well formed. -/

namespace Sys2Proof

/-- Every term of `Instr` is well formed: the type of the BUF field admits exactly the two buffers that the field can name,
and the commands that take no buffer have no such field (R75). -/
def Instr.wellFormed (i : Instr) : Bool :=
  match i with
  | .tobits => true
  | .frombits => true
  | .last3 => true
  | .top3 => true
  | .expand3 => true
  | .merge => true
  | .revealch => true
  | .embed => true
  | .reveal _ => true
  | .getpixel _ => true
  | .setpixel _ => true

namespace Machine

/-- A register access is one whole 32-bit word at an offset that is a multiple of 4 in 0x00 .. 0x3C (R47). -/
def accessWellFormed (off width : Nat) : Bool :=
  off % 4 == 0 && decide (off ≤ 0x3C) && width == 32

/-- A HOST operation that the interface has (R20, R47). -/
def HostOp.wellFormed (op : HostOp) : Bool :=
  match op with
  | .read off width => accessWellFormed off width
  | .write off width _ => accessWellFormed off width
  | .reset => true

end Machine

end Sys2Proof
end

