-- ==== Sys2Proof/Safety.lean ====
section
/-! DEFINITION. What counts as a safe state and a safe run, in the terms the claims use. -/

namespace Sys2Proof.Machine

/-- STATUS holds a code that some rule produces, and STK is set wherever the last command failed (R24, R25). -/
def StatusInv (s : State) : Prop :=
  s.status.code.toNat ≤ 5 ∧ (s.status.code ≠ 0 → s.status.stk = true)

/-- Bits 31:8 of every result register are 0 (R29). -/
def ResultInv (s : State) : Prop :=
  s.res0.toNat < 256 ∧ s.res1.toNat < 256 ∧ s.res2.toNat < 256

/-- Each buffer's bytes are in canonical form (log 5). -/
def StoreInv (s : State) : Prop := s.img0.cells.wf ∧ s.img1.cells.wf

/-- No buffer holds a draw of PIX_REDRAW that has not been taken yet, and the two buffers never share one, so that the next
draw is fresh (R11, R53). -/
def DrawInv (s : State) : Prop :=
  (∀ b n, (buffer s b).fill = .redraw n → n < s.redraws) ∧
    ∀ n, s.img0.fill = .redraw n → s.img1.fill ≠ .redraw n

/-- The invariant of the machine. -/
structure Inv (s : State) : Prop where
  status : StatusInv s
  results : ResultInv s
  store : StoreInv s
  draws : DrawInv s

/-- HOST makes only accesses that the interface has, the premise that a claim about a program carries (R47). -/
def hostOpsWellFormed (ops : List HostOp) : Bool := ops.all HostOp.wellFormed

/-- The register, read as a signed integer, holds a value in [0,255] (R73, R96). -/
abbrev HoldsChannel (w : Word) : Prop := 0 ≤ w.toInt ∧ w.toInt ≤ 255

/-- The coordinate is one of the image in buffer b (R41). -/
abbrev InImage (s : State) (b : Buf) (x y : Coord) : Prop :=
  x.toNat < (width s b).toNat ∧ y.toNat < (height s b).toNat

/-- ARGX and ARGY, read as signed integers, are in bounds of buffer b (R28, R45). -/
abbrev ArgsInBounds (s : State) (b : Buf) : Prop :=
  0 ≤ s.argx.toInt ∧ s.argx.toInt < (width s b).toNat ∧ 0 ≤ s.argy.toInt ∧ s.argy.toInt < (height s b).toNat

/-- ARGX and ARGY, read as signed integers, are the coordinate (x, y) (R28, R140). -/
abbrev ArgsName (s : State) (x y : Coord) : Prop :=
  s.argx.toInt = (x.toNat : Int) ∧ s.argy.toInt = (y.toNat : Int)

/-- A write of `w` to CMD raises the kind `k`: the cause of each kind, as R171 to R175 give it. SETPIXEL with a coordinate out of
bounds raises OutOfBounds whatever its components (R177). -/
def Raises (s : State) (w : Word) (k : Kind) : Prop :=
  match k with
  | .outOfBounds => ∃ b, (decode w = .ok (.getpixel b) ∨ decode w = .ok (.setpixel b)) ∧ ¬ ArgsInBounds s b
  | .invalidChannelValue =>
    (∃ i, decode w = .ok i ∧ i ∈ [Instr.tobits, .last3, .top3, .expand3, .revealch] ∧ ¬ HoldsChannel s.arg0) ∨
    (decode w = .ok .merge ∧ ¬ (HoldsChannel s.arg0 ∧ HoldsChannel s.arg1)) ∨
    (∃ b, decode w = .ok (.setpixel b) ∧ ArgsInBounds s b ∧
      ¬ (HoldsChannel s.arg0 ∧ HoldsChannel s.arg1 ∧ HoldsChannel s.arg2))
  | .dimensionMismatch => decode w = .ok .embed ∧ ¬ (s.w0 = s.w1 ∧ s.h0 = s.h1)
  | .illegalCommand => ∃ e, decode w = .error e
  | .invalidOperand => decode w = .ok .expand3 ∧ 8 ≤ s.arg0.toInt ∧ s.arg0.toInt ≤ 255

/-- The operations of HOST applied one after another, up to the first that does not answer a next state (R56). -/
def applyOps (ops : List HostOp) (s : State) : Host.Outcome State Fault Refusal :=
  match ops with
  | [] => .next s
  | op :: rest =>
    match hostOp op s with
    | .next t => applyOps rest t
    | .fault r => .fault r
    | .refused r => .refused r

end Sys2Proof.Machine
end

