-- ==== Sys2Proof/Certificates/Slice0/Obligations.lean ====
section
/-! DEFINITION. The statements for the provers. A statement holds for every content of PIX_INIT and PIX_REDRAW, since both are
opaque, and for every value of the model's own fields of the state. -/

open Sys2Proof Sys2Proof.Machine

/-! The command word. -/

/-- R71, R74: one word of each family, written out bit by bit. -/
def Obligations.WrittenOutWordsDecode : Prop :=
  decode 0b00000000000000000000000000000001 = .ok .tobits ∧
  decode 0b00000000000000000000000000000110 = .ok .merge ∧
  decode 0b00000000000000000000000000010000 = .ok .embed ∧
  decode 0b00000000000000000000000100010001 = .ok (.reveal .img1) ∧
  decode 0b00000000000000000000000000100000 = .ok (.getpixel .img0) ∧
  decode 0b00000000000000000000000100100001 = .ok (.setpixel .img1) ∧
  decode 0b00000000000000000000000100010000 = .error .buffer

/-- R74, R82: a word decodes to a command exactly when it is that command's word. -/
def Obligations.DecodesExactlyItsOwnWord : Prop :=
  ∀ (w : Word) (i : Instr), i.wellFormed = true → (decode w = .ok i ↔ w = encode i)

/-- R76, R174: which words are illegal, and what writing one to CMD does. -/
def Obligations.IllegalWordsRaiseIllegalCommand : Prop :=
  ∀ w : Word,
    ((∃ e, decode w = .error e) ↔
      w.toNat / 2 ^ 9 ≠ 0 ∨
      w.toNat % 2 ^ 8 ∉ [0x01, 0x02, 0x03, 0x04, 0x05, 0x06, 0x07, 0x10, 0x11, 0x20, 0x21] ∨
      (w.toNat / 2 ^ 8 % 2 = 1 ∧ w.toNat % 2 ^ 8 ∈ [0x01, 0x02, 0x03, 0x04, 0x05, 0x06, 0x07, 0x10])) ∧
    ((∃ e, decode w = .error e) →
      ∀ s : State, hostWrite .cmd w s = .next { s with status := ⟨4, true⟩ })

/-- R74: the mask and match of each row select its command, and exactly fourteen words are legal. -/
def Obligations.RowsSelectByMaskAndMatch : Prop :=
  ∀ w : Word,
    (w &&& 0xFFFFFFFF = 0x00000001 ↔ decode w = .ok .tobits) ∧
    (w &&& 0xFFFFFFFF = 0x00000002 ↔ decode w = .ok .frombits) ∧
    (w &&& 0xFFFFFFFF = 0x00000003 ↔ decode w = .ok .last3) ∧
    (w &&& 0xFFFFFFFF = 0x00000004 ↔ decode w = .ok .top3) ∧
    (w &&& 0xFFFFFFFF = 0x00000005 ↔ decode w = .ok .expand3) ∧
    (w &&& 0xFFFFFFFF = 0x00000006 ↔ decode w = .ok .merge) ∧
    (w &&& 0xFFFFFFFF = 0x00000007 ↔ decode w = .ok .revealch) ∧
    (w &&& 0xFFFFFFFF = 0x00000010 ↔ decode w = .ok .embed) ∧
    (w &&& 0xFFFFFEFF = 0x00000011 ↔
      decode w = .ok (.reveal (if w.toNat / 2 ^ 8 % 2 = 1 then .img1 else .img0))) ∧
    (w &&& 0xFFFFFEFF = 0x00000020 ↔
      decode w = .ok (.getpixel (if w.toNat / 2 ^ 8 % 2 = 1 then .img1 else .img0))) ∧
    (w &&& 0xFFFFFEFF = 0x00000021 ↔
      decode w = .ok (.setpixel (if w.toNat / 2 ^ 8 % 2 = 1 then .img1 else .img0))) ∧
    ((∃ i, decode w = .ok i) ↔
      w ∈ [(0x00000001 : Word), 0x00000002, 0x00000003, 0x00000004, 0x00000005, 0x00000006, 0x00000007, 0x00000010,
        0x00000011, 0x00000111, 0x00000020, 0x00000120, 0x00000021, 0x00000121])

/-! A step. -/

/-- R20 and R158 through the model's queue of HOST operations (log 1): a step performs HOST's next operation, taken from the
queue, and where that is a write of a command's word to CMD, it is that command's execution. -/
def Obligations.StepRunsTheDecodedCommand : Prop :=
  (∀ (s : State) (op : HostOp) (rest : List HostOp), s.pending = op :: rest → step s = hostOp op { s with pending := rest }) ∧
  ∀ (s : State) (w : Word) (i : Instr) (rest : List HostOp),
    s.pending = .write 0x00 32 w :: rest → decode w = .ok i → step s = exec i { s with pending := rest }

/-- The model's choice (log 1): a word placed for the next step is run by it, on the state it was placed in. -/
def Obligations.PlacedWordRunsNext : Prop :=
  ∀ (s : State) (i : Instr), step (s.withFetchWord 32 (encode i).toNat) = exec i s

/-- The model's reading of R201 (log 2): with no HOST operation pending a step changes nothing. -/
def Obligations.NoPendingOperationChangesNothing : Prop :=
  ∀ s : State, s.pending = [] → step s = .next s

/-- R47: a step is refused exactly when HOST's next operation is an access that the interface does not have. No step faults
(log 7, log 8). -/
def Obligations.OnlyForeignAccessesAreRefused : Prop :=
  ∀ s : State,
    ((∃ e, step s = .refused e) ↔
      ∃ off width rest, (s.pending = .read off width :: rest ∨ ∃ w, s.pending = .write off width w :: rest) ∧
        ¬ (off % 4 = 0 ∧ off ≤ 0x3C ∧ width = 32)) ∧
    ∀ r, step s ≠ .fault r

/-! HOST's operations. -/

/-- R200, R37: reset clears every register and leaves the pixel store alone; after it no coordinate is in bounds (R202). At
power-up the store is PIX_INIT. -/
def Obligations.ResetZeroesEveryRegister : Prop :=
  (∀ s : State,
    ∃ t, hostOp .reset s = .next t ∧
      t.status = ⟨0, false⟩ ∧ t.arg0 = 0 ∧ t.arg1 = 0 ∧ t.arg2 = 0 ∧ t.argx = 0 ∧ t.argy = 0 ∧
      t.res0 = 0 ∧ t.res1 = 0 ∧ t.res2 = 0 ∧ (∀ (k : Nat) (h : k < 8), t.bits[k] = 0) ∧
      t.w0 = 0 ∧ t.h0 = 0 ∧ t.w1 = 0 ∧ t.h1 = 0 ∧
      (∀ r, readReg r t = 0) ∧
      (∀ b x y c, byteAt t b x y c = byteAt s b x y c) ∧
      (∀ b x y, ¬ inBounds t b x y)) ∧
  (∀ r, readReg r State.reset = 0) ∧ State.reset.status = ⟨0, false⟩ ∧
  (∀ b x y c, byteAt State.reset b x y c = chanOf (Config.pixInit b x y) c)

/-- R156: the word each HOST read returns, and that the read changes no state of the block. That the model keeps the word at
the head of `returned` is its own choice (log 3). -/
def Obligations.HostReadReturnsTheRegister : Prop :=
  ∀ (s : State) (off : Nat) (v : Word),
    (off, v) ∈ [
      (0x00, (0 : Word)),
      (0x04, BitVec.ofNat 32 (s.status.code.toNat + 256 * s.status.stk.toNat)),
      (0x08, s.arg0), (0x0C, s.arg1), (0x10, s.arg2), (0x14, s.argx), (0x18, s.argy),
      (0x1C, s.res0), (0x20, s.res1), (0x24, s.res2),
      (0x28, BitVec.ofNat 32 (128 * s.bits[0].toNat + 64 * s.bits[1].toNat + 32 * s.bits[2].toNat +
        16 * s.bits[3].toNat + 8 * s.bits[4].toNat + 4 * s.bits[5].toNat + 2 * s.bits[6].toNat + s.bits[7].toNat)),
      (0x2C, 0),
      (0x30, BitVec.ofNat 32 s.w0.toNat), (0x34, BitVec.ofNat 32 s.h0.toNat),
      (0x38, BitVec.ofNat 32 s.w1.toNat), (0x3C, BitVec.ofNat 32 s.h1.toNat)] →
    hostOp (.read off 32) s = .next { s with returned := v :: s.returned }

/-- R155: the effect of a HOST write to each offset, and a refusal at any other offset or width (log 7). That a dimension
write takes the draw of PIX_REDRAW numbered by the counter `redraws`, and counts it, is the model's own choice (log 4). -/
def Obligations.HostWriteHasItsEffect : Prop :=
  ∀ (s : State) (off wid : Nat) (w : Word),
    (¬ (off % 4 = 0 ∧ off ≤ 0x3C ∧ wid = 32) → ∃ e, hostOp (.write off wid w) s = .refused e) ∧
    (wid = 32 →
      (off = 0x00 → (∀ i, decode w = .ok i → hostOp (.write off wid w) s = exec i s) ∧
        ((∃ e, decode w = .error e) → hostOp (.write off wid w) s = .next { s with status := ⟨4, true⟩ })) ∧
      (off ∈ [0x04, 0x1C, 0x20, 0x24, 0x2C] → hostOp (.write off wid w) s = .next s) ∧
      (off = 0x08 → hostOp (.write off wid w) s = .next { s with arg0 := w }) ∧
      (off = 0x0C → hostOp (.write off wid w) s = .next { s with arg1 := w }) ∧
      (off = 0x10 → hostOp (.write off wid w) s = .next { s with arg2 := w }) ∧
      (off = 0x14 → hostOp (.write off wid w) s = .next { s with argx := w }) ∧
      (off = 0x18 → hostOp (.write off wid w) s = .next { s with argy := w }) ∧
      (off = 0x28 → ∃ t, hostOp (.write off wid w) s = .next t ∧ t = { s with bits := t.bits } ∧
        ∀ (k : Nat) (h : k < 8), t.bits[k].toNat = w.toNat / 2 ^ (7 - k) % 2) ∧
      (off = 0x30 → ∃ t, hostOp (.write off wid w) s = .next t ∧
        t = { s with w0 := BitVec.ofNat 31 (w.toNat % 2 ^ 31), img0 := t.img0, redraws := s.redraws + 1 } ∧
        ∀ x y c, byteAt t .img0 x y c = chanOf (Config.pixRedraw s.redraws .img0 x y) c) ∧
      (off = 0x34 → ∃ t, hostOp (.write off wid w) s = .next t ∧
        t = { s with h0 := BitVec.ofNat 31 (w.toNat % 2 ^ 31), img0 := t.img0, redraws := s.redraws + 1 } ∧
        ∀ x y c, byteAt t .img0 x y c = chanOf (Config.pixRedraw s.redraws .img0 x y) c) ∧
      (off = 0x38 → ∃ t, hostOp (.write off wid w) s = .next t ∧
        t = { s with w1 := BitVec.ofNat 31 (w.toNat % 2 ^ 31), img1 := t.img1, redraws := s.redraws + 1 } ∧
        ∀ x y c, byteAt t .img1 x y c = chanOf (Config.pixRedraw s.redraws .img1 x y) c) ∧
      (off = 0x3C → ∃ t, hostOp (.write off wid w) s = .next t ∧
        t = { s with h1 := BitVec.ofNat 31 (w.toNat % 2 ^ 31), img1 := t.img1, redraws := s.redraws + 1 } ∧
        ∀ x y c, byteAt t .img1 x y c = chanOf (Config.pixRedraw s.redraws .img1 x y) c))

/-- R53: a write of any value to W[b] or H[b] replaces the whole content of buffer b by a draw of PIX_REDRAW that no buffer
holds in the state before the write, and leaves the other buffer alone. The draw's number, the counter `redraws`, and the
premise about it are the model's own choice (log 4). The premise is an invariant of the machine (StepKeepsTheInvariant). -/
def Obligations.DimensionWriteRedrawsTheBuffer : Prop :=
  ∀ (s : State) (b : Buf) (r : Reg) (w : Word), DrawInv s → r = widthReg b ∨ r = heightReg b →
    ∃ t, hostWrite r w s = .next t ∧
      (∀ x y c, byteAt t b x y c = chanOf (Config.pixRedraw s.redraws b x y) c) ∧
      (∀ a, (buffer s a).fill ≠ .redraw s.redraws) ∧
      (∀ a, a ≠ b → buffer t a = buffer s a ∧ ∀ x y c, byteAt t a x y c = byteAt s a x y c)

/-- R27, R28, R30, R31, R32: what a HOST write leaves in its register, and that it changes no other. -/
def Obligations.WrittenRegisterReadsBack : Prop :=
  ∀ (s : State) (r : Reg) (w : Word), r ≠ .cmd →
    ∃ t, hostWrite r w s = .next t ∧
      (r ∈ [Reg.arg0, .arg1, .arg2, .argx, .argy] → readReg r t = w) ∧
      (r = .bits → (readReg r t).toNat = w.toNat % 2 ^ 8) ∧
      (r ∈ [Reg.w0, .h0, .w1, .h1] → (readReg r t).toNat = w.toNat % 2 ^ 31) ∧
      (r ∈ [Reg.status, .res0, .res1, .res2, .reserved] → t = s) ∧
      ∀ r', r' ≠ r → readReg r' t = readReg r' s

/-! The scalar commands. -/

/-- R97. -/
def Obligations.TobitsDecomposes : Prop :=
  decode 0x00000001 = .ok .tobits ∧
  ∀ s : State,
    (HoldsChannel s.arg0 → ∃ t, exec .tobits s = .next t ∧
      t = { s with bits := t.bits, status := ⟨0, s.status.stk⟩ } ∧
      (∀ (k : Nat) (h : k < 8), t.bits[k].toNat = s.arg0.toNat / 2 ^ (7 - k) % 2) ∧
      readReg .bits t = s.arg0) ∧
    (¬ HoldsChannel s.arg0 → exec .tobits s = .next { s with status := ⟨2, true⟩ })

/-- R98: FROMBITS never fails, and it undoes TOBITS. -/
def Obligations.FrombitsRecomposes : Prop :=
  decode 0x00000002 = .ok .frombits ∧
  ∀ s : State,
    exec .frombits s = .next { s with
      res0 := BitVec.ofNat 32 (128 * s.bits[0].toNat + 64 * s.bits[1].toNat + 32 * s.bits[2].toNat +
        16 * s.bits[3].toNat + 8 * s.bits[4].toNat + 4 * s.bits[5].toNat + 2 * s.bits[6].toNat + s.bits[7].toNat)
      status := ⟨0, s.status.stk⟩ } ∧
    (HoldsChannel s.arg0 → ∃ t u, exec .tobits s = .next t ∧ exec .frombits t = .next u ∧ u.res0 = s.arg0)

/-- R99. -/
def Obligations.LastThreeIsTheRemainderByEight : Prop :=
  decode 0x00000003 = .ok .last3 ∧
  ∀ s : State,
    (HoldsChannel s.arg0 → exec .last3 s =
      .next { s with res0 := BitVec.ofNat 32 (s.arg0.toNat % 8), status := ⟨0, s.status.stk⟩ }) ∧
    (¬ HoldsChannel s.arg0 → exec .last3 s = .next { s with status := ⟨2, true⟩ })

/-- R100. -/
def Obligations.TopThreeIsTheQuotientByThirtyTwo : Prop :=
  decode 0x00000004 = .ok .top3 ∧
  ∀ s : State,
    (HoldsChannel s.arg0 → exec .top3 s =
      .next { s with res0 := BitVec.ofNat 32 (s.arg0.toNat / 32), status := ⟨0, s.status.stk⟩ }) ∧
    (¬ HoldsChannel s.arg0 → exec .top3 s = .next { s with status := ⟨2, true⟩ })

/-- R101. -/
def Obligations.ExpandThreeReexpands : Prop :=
  decode 0x00000005 = .ok .expand3 ∧
  ∀ s : State,
    (0 ≤ s.arg0.toInt ∧ s.arg0.toInt ≤ 7 → exec .expand3 s =
      .next { s with res0 := BitVec.ofNat 32 (16 + 32 * s.arg0.toNat), status := ⟨0, s.status.stk⟩ }) ∧
    (8 ≤ s.arg0.toInt ∧ s.arg0.toInt ≤ 255 → exec .expand3 s = .next { s with status := ⟨5, true⟩ }) ∧
    (¬ HoldsChannel s.arg0 → exec .expand3 s = .next { s with status := ⟨2, true⟩ })

/-- R111, with step 3 of R110: five bits of the cover, then the hidden value's top three. -/
def Obligations.MergeCombinesTwoChannels : Prop :=
  decode 0x00000006 = .ok .merge ∧
  ∀ s : State,
    (HoldsChannel s.arg0 ∧ HoldsChannel s.arg1 → exec .merge s =
      .next { s with res0 := (s.arg0 &&& 0xF8#32) ||| (s.arg1 >>> 5), status := ⟨0, s.status.stk⟩ }) ∧
    (¬ (HoldsChannel s.arg0 ∧ HoldsChannel s.arg1) → exec .merge s = .next { s with status := ⟨2, true⟩ })

/-- R126, with R125's `expandTop3(last3BitsValue(n))` in the forms of R92 and R94. -/
def Obligations.RevealchAmplifiesTheLowBits : Prop :=
  decode 0x00000007 = .ok .revealch ∧
  ∀ s : State,
    (HoldsChannel s.arg0 → exec .revealch s =
      .next { s with res0 := BitVec.ofNat 32 (16 + 32 * (s.arg0.toNat % 8)), status := ⟨0, s.status.stk⟩ }) ∧
    (¬ HoldsChannel s.arg0 → exec .revealch s = .next { s with status := ⟨2, true⟩ })

/-! The image commands. -/

/-- R113: with equal dimensions every byte of the cover gets its merged value, in place, and nothing else changes but STATUS;
otherwise DimensionMismatch and nothing else. -/
def Obligations.EmbedMergesTheWholeImage : Prop :=
  decode 0x00000010 = .ok .embed ∧
  ∀ s : State,
    (s.w0 = s.w1 ∧ s.h0 = s.h1 → ∃ t, exec .embed s = .next t ∧
      t = { s with img0 := t.img0, status := ⟨0, s.status.stk⟩ } ∧
      (∀ x y c, InImage s .img0 x y →
        byteAt t .img0 x y c = (byteAt s .img0 x y c &&& 0xF8#8) ||| (byteAt s .img1 x y c >>> 5)) ∧
      (∀ x y c, ¬ InImage s .img0 x y → byteAt t .img0 x y c = byteAt s .img0 x y c) ∧
      (∀ x y c, byteAt t .img1 x y c = byteAt s .img1 x y c)) ∧
    (¬ (s.w0 = s.w1 ∧ s.h0 = s.h1) → exec .embed s = .next { s with status := ⟨3, true⟩ })

/-- R128: REVEAL never fails; every byte of the selected image gets its revealed value, in place, and nothing else changes
but STATUS. -/
def Obligations.RevealReplacesTheWholeImage : Prop :=
  decode 0x00000011 = .ok (.reveal .img0) ∧ decode 0x00000111 = .ok (.reveal .img1) ∧
  ∀ (s : State) (b : Buf), ∃ t, exec (.reveal b) s = .next t ∧
    t = { s with
      img0 := if b = .img0 then t.img0 else s.img0
      img1 := if b = .img1 then t.img1 else s.img1
      status := ⟨0, s.status.stk⟩ } ∧
    (∀ x y c, InImage s b x y → (byteAt t b x y c).toNat = 16 + 32 * ((byteAt s b x y c).toNat % 8)) ∧
    (∀ x y c, ¬ InImage s b x y → byteAt t b x y c = byteAt s b x y c) ∧
    (∀ a x y c, a ≠ b → byteAt t a x y c = byteAt s a x y c)

/-! The pixel commands. -/

/-- R140. -/
def Obligations.GetpixelReadsThePixel : Prop :=
  decode 0x00000020 = .ok (.getpixel .img0) ∧ decode 0x00000120 = .ok (.getpixel .img1) ∧
  ∀ (s : State) (b : Buf),
    (∀ x y : Coord, ArgsName s x y → InImage s b x y → exec (.getpixel b) s = .next { s with
      res0 := BitVec.ofNat 32 (byteAt s b x y .red).toNat
      res1 := BitVec.ofNat 32 (byteAt s b x y .green).toNat
      res2 := BitVec.ofNat 32 (byteAt s b x y .blue).toNat
      status := ⟨0, s.status.stk⟩ }) ∧
    (ArgsInBounds s b → ∃ x y : Coord, ArgsName s x y ∧ InImage s b x y) ∧
    (¬ ArgsInBounds s b → exec (.getpixel b) s = .next { s with status := ⟨1, true⟩ })

/-- R141: the pixel at (b, sint(ARGX), sint(ARGY)) gets the three components, and every other byte of both buffers and every
register but STATUS is unchanged. An address out of bounds is reported before an invalid component. -/
def Obligations.SetpixelWritesOnePixel : Prop :=
  decode 0x00000021 = .ok (.setpixel .img0) ∧ decode 0x00000121 = .ok (.setpixel .img1) ∧
  ∀ (s : State) (b : Buf),
    (∀ x y : Coord, ArgsName s x y → InImage s b x y →
      HoldsChannel s.arg0 → HoldsChannel s.arg1 → HoldsChannel s.arg2 →
      ∃ t, exec (.setpixel b) s = .next t ∧
        t = { s with
          img0 := if b = .img0 then t.img0 else s.img0
          img1 := if b = .img1 then t.img1 else s.img1
          status := ⟨0, s.status.stk⟩ } ∧
        (byteAt t b x y .red).toNat = s.arg0.toNat ∧
        (byteAt t b x y .green).toNat = s.arg1.toNat ∧
        (byteAt t b x y .blue).toNat = s.arg2.toNat ∧
        (∀ a x' y' c, ¬ (a = b ∧ x' = x ∧ y' = y) → byteAt t a x' y' c = byteAt s a x' y' c)) ∧
    (ArgsInBounds s b → ∃ x y : Coord, ArgsName s x y ∧ InImage s b x y) ∧
    (¬ ArgsInBounds s b → exec (.setpixel b) s = .next { s with status := ⟨1, true⟩ }) ∧
    (ArgsInBounds s b → ¬ (HoldsChannel s.arg0 ∧ HoldsChannel s.arg1 ∧ HoldsChannel s.arg2) →
      exec (.setpixel b) s = .next { s with status := ⟨2, true⟩ })

/-- R143 (the spec's inference, "[derived: from rules R140, R141, R113, R128 ...]"): what SETPIXEL writes GETPIXEL reads back
at once, on either buffer. -/
def Obligations.GetpixelAfterSetpixelReturnsTheComponents : Prop :=
  ∀ (s : State) (b : Buf), ArgsInBounds s b → HoldsChannel s.arg0 → HoldsChannel s.arg1 → HoldsChannel s.arg2 →
    ∃ t u, exec (.setpixel b) s = .next t ∧ exec (.getpixel b) t = .next u ∧
      u.res0 = s.arg0 ∧ u.res1 = s.arg1 ∧ u.res2 = s.arg2 ∧ u.status = ⟨0, s.status.stk⟩

/-- R49 (the spec's inference, "[derived: from rules R110, R125]"), R52: a pixel read is stable, whether or not anything has
written the pixel: a second GETPIXEL changes nothing. -/
def Obligations.GetpixelIsIdempotent : Prop :=
  ∀ (s : State) (b : Buf), ∃ t, exec (.getpixel b) s = .next t ∧ exec (.getpixel b) t = .next t

/-- R49 (the spec's inference, "[derived: from rules R110, R125]"): a SETPIXEL of the value the pixel already holds changes
no byte of either buffer. Bytes are compared, not the lists that hold them (log 6). -/
def Obligations.SetpixelOfTheHeldValueChangesNoByte : Prop :=
  ∀ (s : State) (b : Buf) (x y : Coord), ArgsName s x y → InImage s b x y →
    s.arg0.toNat = (byteAt s b x y .red).toNat → s.arg1.toNat = (byteAt s b x y .green).toNat →
    s.arg2.toNat = (byteAt s b x y .blue).toNat →
    ∃ t, exec (.setpixel b) s = .next t ∧ t.status = ⟨0, s.status.stk⟩ ∧
      ∀ a x' y' c, byteAt t a x' y' c = byteAt s a x' y' c

/-! STATUS and the error kinds. -/

/-- R178, with the causes of R171, R172 and R175 and the codes of R24: a write to CMD that raises a kind sets CODE to that
kind's code and STK to 1, and nothing else changes: no register, no pixel. A write that leaves CODE not 0 has raised a kind.
-/
def Obligations.FailingCommandChangesStatusAlone : Prop :=
  (∀ (s : State) (w : Word) (k : Kind), Raises s w k → hostWrite .cmd w s = .next { s with status := ⟨k.code, true⟩ }) ∧
  (∀ (s t : State) (w : Word), hostWrite .cmd w s = .next t → t.status.code ≠ 0 →
    ∃ k, Raises s w k ∧ t = { s with status := ⟨k.code, true⟩ }) ∧
  Kind.code .outOfBounds = 1 ∧ Kind.code .invalidChannelValue = 2 ∧ Kind.code .dimensionMismatch = 3 ∧
  Kind.code .illegalCommand = 4 ∧ Kind.code .invalidOperand = 5

/-- R176 (the spec's inference, "[derived: from rules R97 to R101, R111, R113, R126, R128, R140, R141]"), with the
causes of R171, R172 and R175: an illegal word leaves code 4, and no command does. Which command leaves which other code, and
exactly when. -/
def Obligations.EachKindHasExactlyItsCauses : Prop :=
  (∀ (s : State) (w : Word) (e : IllegalWord), decode w = .error e →
    hostWrite .cmd w s = .next { s with status := ⟨4, true⟩ }) ∧
  ∀ (s t : State) (i : Instr), exec i s = .next t →
    (t.status.code = 1 ↔ ∃ b, (i = .getpixel b ∨ i = .setpixel b) ∧ ¬ ArgsInBounds s b) ∧
    (t.status.code = 2 ↔
      (i ∈ [Instr.tobits, .last3, .top3, .expand3, .revealch] ∧ ¬ HoldsChannel s.arg0) ∨
      (i = .merge ∧ ¬ (HoldsChannel s.arg0 ∧ HoldsChannel s.arg1)) ∨
      (∃ b, i = .setpixel b ∧ ArgsInBounds s b ∧
        ¬ (HoldsChannel s.arg0 ∧ HoldsChannel s.arg1 ∧ HoldsChannel s.arg2))) ∧
    (t.status.code = 3 ↔ i = .embed ∧ ¬ (s.w0 = s.w1 ∧ s.h0 = s.h1)) ∧
    t.status.code ≠ 4 ∧
    (t.status.code = 5 ↔ i = .expand3 ∧ 8 ≤ s.arg0.toInt ∧ s.arg0.toInt ≤ 255) ∧
    t.status.code.toNat ≤ 5

/-- R25: a failing command sets STK, a successful one leaves it, no operation of HOST but reset clears it, and reset does. -/
def Obligations.StickyFlagIsClearedOnlyByReset : Prop :=
  (∀ (s t : State) (w : Word), hostWrite .cmd w s = .next t →
    t.status.stk = (if t.status.code = 0 then s.status.stk else true)) ∧
  (∀ (s t : State) (op : HostOp), hostOp op s = .next t → op ≠ .reset → s.status.stk = true → t.status.stk = true) ∧
  (∀ s : State, ∃ t, hostOp .reset s = .next t ∧ t.status.stk = false)

/-- R26, R35 (both the spec's inferences, "[derived: ... from the command rules ...]"): no command's outcome depends on
STATUS or on the result registers: from two states that differ only there, it writes the same things and reports the same
code. -/
def Obligations.OutcomeIgnoresStatusAndResults : Prop :=
  ∀ (s t : State) (i : Instr) (st : Status) (r0 r1 r2 : Word), exec i s = .next t →
    ∃ u, exec i { s with status := st, res0 := r0, res1 := r1, res2 := r2 } = .next u ∧
      u.status.code = t.status.code ∧
      u.status.stk = (if t.status.code = 0 then st.stk else true) ∧
      u.bits = t.bits ∧ u.img0 = t.img0 ∧ u.img1 = t.img1 ∧
      (u.res0 = t.res0 ∨ (u.res0 = r0 ∧ t.res0 = s.res0)) ∧
      (u.res1 = t.res1 ∨ (u.res1 = r1 ∧ t.res1 = s.res1)) ∧
      (u.res2 = t.res2 ∨ (u.res2 = r2 ∧ t.res2 = s.res2))

/-! Whole-machine rules about what a command may write. -/

/-- R27, R28, R32, R116: a command answers a next state and writes no operand register, no dimension register and none of the
model's own fields. -/
def Obligations.CommandsLeaveOperandsAndDimensions : Prop :=
  ∀ (s : State) (i : Instr), ∃ t, exec i s = .next t ∧
    t.arg0 = s.arg0 ∧ t.arg1 = s.arg1 ∧ t.arg2 = s.arg2 ∧ t.argx = s.argx ∧ t.argy = s.argy ∧
    t.w0 = s.w0 ∧ t.h0 = s.h0 ∧ t.w1 = s.w1 ∧ t.h1 = s.h1 ∧
    t.redraws = s.redraws ∧ t.pending = s.pending ∧ t.returned = s.returned

/-- R29, R30: which commands may change BITS and each result register, and that every value a command leaves in one
where it changes it is at most 255 (the spec's inference, "[derived: from rules R98 to R101, R111, R126, R140]"). -/
def Obligations.OnlyTheNamedCommandsWriteResults : Prop :=
  ∀ (s t : State) (i : Instr), exec i s = .next t →
    (t.bits ≠ s.bits → i = .tobits ∧ t.status.code = 0) ∧
    (t.res0 ≠ s.res0 → t.status.code = 0 ∧ t.res0.toNat ≤ 255 ∧
      ((∃ b, i = .getpixel b) ∨ i ∈ [Instr.frombits, .last3, .top3, .expand3, .merge, .revealch])) ∧
    (t.res1 ≠ s.res1 → t.status.code = 0 ∧ t.res1.toNat ≤ 255 ∧ ∃ b, i = .getpixel b) ∧
    (t.res2 ≠ s.res2 → t.status.code = 0 ∧ t.res2.toNat ≤ 255 ∧ ∃ b, i = .getpixel b)

/-- R40, R45, R142: a byte of the pixel store that a command changes is in bounds, and the command is SETPIXEL at that very
coordinate, or EMBED on IMG0, or REVEAL of that buffer. -/
def Obligations.OnlyTheNamedCommandsChangePixels : Prop :=
  ∀ (s t : State) (i : Instr) (b : Buf) (x y : Coord) (c : Chan), exec i s = .next t →
    byteAt t b x y c ≠ byteAt s b x y c →
    InImage s b x y ∧ ((i = .setpixel b ∧ ArgsName s x y) ∨ (i = .embed ∧ b = .img0) ∨ i = .reveal b)

/-! The pure functions and their properties. -/

/-- R90, R91, R92, R93, R94: the pure functions, bit by bit and in closed form. That expandTop3(v) is 16 + 32*v is the spec's
inference ("The second line is [derived: 32*v0 + 64*v1 + 128*v2 = 32*(v0 + 2*v1 + 4*v2) = 32*v]"). -/
def Obligations.BitFunctionsHaveTheirFormulas : Prop :=
  (∀ (n : Byte) (k : Nat) (h : k < 8), (toBits n)[k].toNat = n.toNat / 2 ^ (7 - k) % 2) ∧
  (∀ q : BitSeq, (fromBits q).toNat = 128 * q[0].toNat + 64 * q[1].toNat + 32 * q[2].toNat + 16 * q[3].toNat +
    8 * q[4].toNat + 4 * q[5].toNat + 2 * q[6].toNat + q[7].toNat) ∧
  (∀ n : Byte, (last3BitsValue n).toNat = 4 * (toBits n)[5].toNat + 2 * (toBits n)[6].toNat + (toBits n)[7].toNat ∧
    (last3BitsValue n).toNat = n.toNat % 8 ∧ (last3BitsValue n).setWidth 8 = n &&& 0x07#8) ∧
  (∀ n : Byte, (top3Bits n).toNat = 4 * (toBits n)[0].toNat + 2 * (toBits n)[1].toNat + (toBits n)[2].toNat ∧
    (top3Bits n).toNat = n.toNat / 32 ∧ (top3Bits n).setWidth 8 = n >>> 5) ∧
  (∀ v : Uint3, (expandTop3 v).toNat = 16 + 32 * (v.toNat % 2) + 64 * (v.toNat / 2 % 2) + 128 * (v.toNat / 4 % 2) ∧
    (expandTop3 v).toNat = 16 + 32 * v.toNat ∧
    expandTop3 v = fromBits #v[v.extractLsb' 2 1, v.extractLsb' 1 1, v.extractLsb' 0 1, 1, 0, 0, 0, 0])

/-- R102: (a), (b) and (c), the properties of BitOps that the source requires, and the three that the spec infers ("Further
[derived: from rules R90 to R94]"). -/
def Obligations.BitOpsRoundTrips : Prop :=
  (∀ n : Byte, (last3BitsValue n).toNat = n.toNat % 8) ∧
  (∀ n : Byte, fromBits (toBits n) = n) ∧
  (∀ v : Uint3, top3Bits (expandTop3 v) = v ∧ (expandTop3 v).toNat % 16 = 0 ∧ (expandTop3 v).toNat / 16 % 2 = 1) ∧
  (∀ q : BitSeq, toBits (fromBits q) = q) ∧
  (∀ n : Byte, n.toNat = 32 * (top3Bits n).toNat + n.toNat % 32) ∧
  (∀ n : Byte, n.toNat = 8 * (n.toNat / 8) + (last3BitsValue n).toNat)

/-- R110: the merged byte's bits are the cover's five and the hidden value's three, and its closed forms, which the spec
infers ("The last two lines are [derived: from rules R90, R91, R93]"). -/
def Obligations.MergeChannelHasItsForms : Prop :=
  ∀ c h : Byte,
    (∀ (k : Nat) (_ : k < 5), (toBits (mergeChannel c h))[k] = (toBits c)[k]) ∧
    (∀ (k : Nat) (_ : k < 3), (toBits (mergeChannel c h))[5 + k] = (toBits h)[k]) ∧
    mergeChannel c h = (c &&& 0xF8#8) ||| (h >>> 5) ∧
    (mergeChannel c h).toNat = 8 * (c.toNat / 8) + (top3Bits h).toNat

/-- R114: (a) to (g), per channel, and (a) on images. (b) and (e) to (g) are the spec's inferences ("(e) to (g) are
derived"). -/
def Obligations.EmbeddingKeepsTheCoverAndCarriesThePayload : Prop :=
  (∀ c h : Byte,
    (mergeChannel c h).toNat / 8 = c.toNat / 8 ∧
    last3BitsValue (mergeChannel c h) = top3Bits h ∧
    (h.toNat < 32 → mergeChannel c h = c &&& 0xF8#8) ∧
    |((mergeChannel c h).toNat : Int) - (c.toNat : Int)| ≤ 7 ∧
    mergeChannel (mergeChannel c h) h = mergeChannel c h ∧
    ∀ c' h' : Byte, c.toNat / 8 = c'.toNat / 8 → h.toNat / 32 = h'.toNat / 32 →
      mergeChannel c' h' = mergeChannel c h) ∧
  mergeChannel 214 176 = 213 ∧
  ∀ (cover hidden : Image) (x y : Coord) (c : Chan),
    (chanOf (embedImage cover hidden x y) c).toNat / 8 = (chanOf (cover x y) c).toNat / 8

/-- R129: EMBED then REVEAL of IMG0 gives, at every pixel and channel, the hidden image's top three bits re-expanded,
whatever the cover was; that value is within 16 of the hidden one; and the source's concrete scenario. The per-channel form
and the bound are the spec's inferences ("[derived: from rule R114 (b) and rule R125]", "[derived: h = 32*k + m ...]"). -/
def Obligations.RevealAfterEmbedShowsTheHiddenImage : Prop :=
  (∀ s : State, s.w0 = s.w1 ∧ s.h0 = s.h1 →
    ∃ t u, exec .embed s = .next t ∧ exec (.reveal .img0) t = .next u ∧
      ∀ x y c, InImage s .img0 x y →
        byteAt u .img0 x y c = expandTop3 (top3Bits (byteAt s .img1 x y c)) ∧
        (byteAt u .img0 x y c).toNat = 16 + 32 * ((byteAt s .img1 x y c).toNat / 32) ∧
        |((byteAt u .img0 x y c).toNat : Int) - ((byteAt s .img1 x y c).toNat : Int)| ≤ 16) ∧
  revealChannel 213 = 176

/-- R114 (f), which the spec infers ("(e) to (g) are derived"), on the machine: a second EMBED with the same hidden image
changes no byte. -/
def Obligations.SecondEmbedChangesNoByte : Prop :=
  ∀ s : State, s.w0 = s.w1 ∧ s.h0 = s.h1 →
    ∃ t u, exec .embed s = .next t ∧ exec .embed t = .next u ∧
      ∀ b x y c, byteAt u b x y c = byteAt t b x y c

/-- R131: per channel, and on the machine: a second REVEAL of a buffer sets every channel of its image to 16, so REVEAL is
not idempotent. The rule is the spec's inference ("[derived: revealChannel(n) is 16 + 32*k ...]"). -/
def Obligations.SecondRevealLeavesSixteen : Prop :=
  (∀ n : Byte, revealChannel (revealChannel n) = 16) ∧ revealChannel (revealChannel 7) ≠ revealChannel 7 ∧
  ∀ (s : State) (b : Buf), ∃ t u, exec (.reveal b) s = .next t ∧ exec (.reveal b) t = .next u ∧
    ∀ x y c, InImage s b x y → byteAt u b x y c = 16

/-! The invariant and runs. -/

/-- R24, R25, R29, R11, and the canonical form of the pixel store (log 5): every step keeps the invariant. -/
def Obligations.StepKeepsTheInvariant : Prop :=
  ∀ s t : State, Inv s → step s = .next t → Inv t

/-- The state right after reset meets the invariant. -/
def Obligations.ResetStateMeetsTheInvariant : Prop := Inv State.reset

/-- R201 (the spec's inference, "[derived: from rules R37, R113, R140, R99]"): the first commands after a reset. -/
def Obligations.FirstCommandsAfterReset : Prop :=
  exec .embed State.reset = .next State.reset ∧
  exec (.getpixel .img0) State.reset = .next { State.reset with status := ⟨1, true⟩ } ∧
  exec .last3 State.reset = .next State.reset

/-- R47, R158, R178, through the model's queue of HOST operations (log 1): as long as HOST makes only accesses that the
interface has, no number of steps ends in a fault or a
refusal, whatever commands and operands it issues. -/
def Obligations.WellFormedHostIsNeverStopped : Prop :=
  ∀ (n : Nat) (s : State), hostOpsWellFormed s.pending = true → ∃ t, Sys2Proof.core.run n s = .next t

/-- R56, through the model's queue of HOST operations (log 1): running HOST's operations step by step is applying them one
after another, in HOST's order, and the operations still to come make no difference to that. -/
def Obligations.RunAppliesOperationsInOrder : Prop :=
  ∀ (ops rest : List HostOp) (s : State), hostOpsWellFormed ops = true →
    ∃ t, applyOps ops { s with pending := [] } = .next t ∧
      Sys2Proof.core.run ops.length { s with pending := ops ++ rest } = .next { t with pending := rest }
end

