-- ==== Sys2Proof/Laws/Decode.lean ====
section
/-! SUPPORT. The fields of a command word as numbers, and the word back from its fields. -/

namespace Sys2Proof

theorem opcField_toNat (w : Word) : (opcField w).toNat = w.toNat % 2 ^ 8 := by
  simp [opcField]

theorem bufField_toNat (w : Word) : (bufField w).toNat = w.toNat / 2 ^ 8 % 2 := by
  simp [bufField, Nat.shiftRight_eq_div_pow]

theorem zeroField_toNat (w : Word) : (zeroField w).toNat = w.toNat / 2 ^ 9 := by
  have := w.isLt
  simp only [zeroField, BitVec.extractLsb'_toNat, Nat.shiftRight_eq_div_pow]
  omega

theorem zeroField_eq_zero_iff (w : Word) : zeroField w = 0 ↔ w.toNat / 2 ^ 9 = 0 := by
  rw [← BitVec.toNat_inj, zeroField_toNat]
  rfl

theorem opcField_eq_iff (w : Word) (v : Byte) : opcField w = v ↔ w.toNat % 2 ^ 8 = v.toNat := by
  rw [← BitVec.toNat_inj, opcField_toNat]

theorem bufField_eq_one_iff (w : Word) : bufField w = 1 ↔ w.toNat / 2 ^ 8 % 2 = 1 := by
  rw [← BitVec.toNat_inj, bufField_toNat]
  rfl

/-- A word with ZERO = 0 is its OPC and its BUF. -/
theorem word_of_fields {w : Word} (h : zeroField w = 0) :
    w.toNat = 2 ^ 8 * (bufField w).toNat + (opcField w).toNat := by
  have := (zeroField_eq_zero_iff w).mp h
  rw [bufField_toNat, opcField_toNat]
  omega

theorem bit_cases (b : Bit) : b = 0 ∨ b = 1 := by revert b; decide

/-- Two words with ZERO = 0 and the same OPC and BUF are the same word. -/
theorem word_ext_of_fields {v w : Word} (hv : zeroField v = 0) (hw : zeroField w = 0)
    (ho : opcField v = opcField w) (hb : bufField v = bufField w) : v = w :=
  BitVec.eq_of_toNat_eq (by rw [word_of_fields hv, word_of_fields hw, ho, hb])

/-- The three tests of the decoding algorithm, at once. -/
theorem decode_eq_ok_iff (w : Word) (i : Instr) :
    decode w = .ok i ↔ zeroField w = 0 ∧ commandAt (opcField w) (bufOfBit (bufField w)) = some i ∧
      ¬ (bufField w = 1 ∧ takesBuf i = false) := by
  unfold decode
  by_cases hz : zeroField w = 0
  · rw [if_neg (not_not.mpr hz)]
    cases hc : commandAt (opcField w) (bufOfBit (bufField w)) with
    | none => exact ⟨fun h => (nomatch h), fun h => (nomatch h.2.1)⟩
    | some j =>
      dsimp only
      by_cases hb : bufField w = 1 ∧ takesBuf j = false
      · rw [if_pos hb]
        exact ⟨fun h => (nomatch h), fun h => absurd hb (by cases h.2.1; exact h.2.2)⟩
      · rw [if_neg hb]
        exact ⟨fun h => by cases h; exact ⟨hz, rfl, hb⟩, fun h => by cases h.2.1; rfl⟩
  · rw [if_pos hz]
    exact ⟨fun h => (nomatch h), fun h => absurd h.1 hz⟩

/-- A word is illegal exactly when one of the three tests fails. -/
theorem decode_eq_error_iff (w : Word) :
    (∃ e, decode w = .error e) ↔ zeroField w ≠ 0 ∨ commandAt (opcField w) (bufOfBit (bufField w)) = none ∨
      ∃ i, commandAt (opcField w) (bufOfBit (bufField w)) = some i ∧ bufField w = 1 ∧ takesBuf i = false := by
  constructor
  · rintro ⟨e, he⟩
    by_contra h
    rw [not_or, not_or, not_not] at h
    obtain ⟨hz, hn, hb⟩ := h
    obtain ⟨i, hi⟩ := Option.ne_none_iff_exists'.mp hn
    rw [(decode_eq_ok_iff w i).mpr ⟨hz, hi, fun hb' => hb ⟨i, hi, hb'⟩⟩] at he
    cases he
  · intro h
    cases hd : decode w with
    | error e => exact ⟨e, rfl⟩
    | ok i =>
      obtain ⟨hz, hi, hb⟩ := (decode_eq_ok_iff w i).mp hd
      rcases h with h | h | ⟨j, hj, hb'⟩
      · exact absurd hz h
      · rw [h] at hi
        cases hi
      · rw [hj] at hi
        cases hi
        exact absurd hb' hb

/-- The command at an opcode has that opcode in its match column, and the buffer it was given where it takes one. -/
theorem commandAt_row : ∀ (opc : Byte) (b : Buf), ∀ i ∈ commandAt opc b,
    rowMatch i = opc.setWidth 32 ∧ operandBits i = if takesBuf i then bufBits b else 0 := by
  intro opc b
  cases b <;> revert opc <;> decide

end Sys2Proof
end

