-- ==== Sys2Proof/Laws/State.lean ====
section
/-! SUPPORT. One lemma for each field of each named update of the state, so that no later proof unfolds an update. -/

namespace Sys2Proof.Machine

/-! The end of a command without an exception writes STATUS alone. -/

@[simp] theorem complete_status (s : State) : (complete s).status = ⟨0, s.status.stk⟩ := rfl
@[simp] theorem complete_arg0 (s : State) : (complete s).arg0 = s.arg0 := rfl
@[simp] theorem complete_arg1 (s : State) : (complete s).arg1 = s.arg1 := rfl
@[simp] theorem complete_arg2 (s : State) : (complete s).arg2 = s.arg2 := rfl
@[simp] theorem complete_argx (s : State) : (complete s).argx = s.argx := rfl
@[simp] theorem complete_argy (s : State) : (complete s).argy = s.argy := rfl
@[simp] theorem complete_res0 (s : State) : (complete s).res0 = s.res0 := rfl
@[simp] theorem complete_res1 (s : State) : (complete s).res1 = s.res1 := rfl
@[simp] theorem complete_res2 (s : State) : (complete s).res2 = s.res2 := rfl
@[simp] theorem complete_bits (s : State) : (complete s).bits = s.bits := rfl
@[simp] theorem complete_w0 (s : State) : (complete s).w0 = s.w0 := rfl
@[simp] theorem complete_h0 (s : State) : (complete s).h0 = s.h0 := rfl
@[simp] theorem complete_w1 (s : State) : (complete s).w1 = s.w1 := rfl
@[simp] theorem complete_h1 (s : State) : (complete s).h1 = s.h1 := rfl
@[simp] theorem complete_img0 (s : State) : (complete s).img0 = s.img0 := rfl
@[simp] theorem complete_img1 (s : State) : (complete s).img1 = s.img1 := rfl
@[simp] theorem complete_redraws (s : State) : (complete s).redraws = s.redraws := rfl
@[simp] theorem complete_pending (s : State) : (complete s).pending = s.pending := rfl
@[simp] theorem complete_returned (s : State) : (complete s).returned = s.returned := rfl

/-! Taking an exception writes STATUS alone. -/

@[simp] theorem raise_status (k : Kind) (s : State) : (raise k s).status = ⟨k.code, true⟩ := rfl
@[simp] theorem raise_arg0 (k : Kind) (s : State) : (raise k s).arg0 = s.arg0 := rfl
@[simp] theorem raise_arg1 (k : Kind) (s : State) : (raise k s).arg1 = s.arg1 := rfl
@[simp] theorem raise_arg2 (k : Kind) (s : State) : (raise k s).arg2 = s.arg2 := rfl
@[simp] theorem raise_argx (k : Kind) (s : State) : (raise k s).argx = s.argx := rfl
@[simp] theorem raise_argy (k : Kind) (s : State) : (raise k s).argy = s.argy := rfl
@[simp] theorem raise_res0 (k : Kind) (s : State) : (raise k s).res0 = s.res0 := rfl
@[simp] theorem raise_res1 (k : Kind) (s : State) : (raise k s).res1 = s.res1 := rfl
@[simp] theorem raise_res2 (k : Kind) (s : State) : (raise k s).res2 = s.res2 := rfl
@[simp] theorem raise_bits (k : Kind) (s : State) : (raise k s).bits = s.bits := rfl
@[simp] theorem raise_w0 (k : Kind) (s : State) : (raise k s).w0 = s.w0 := rfl
@[simp] theorem raise_h0 (k : Kind) (s : State) : (raise k s).h0 = s.h0 := rfl
@[simp] theorem raise_w1 (k : Kind) (s : State) : (raise k s).w1 = s.w1 := rfl
@[simp] theorem raise_h1 (k : Kind) (s : State) : (raise k s).h1 = s.h1 := rfl
@[simp] theorem raise_img0 (k : Kind) (s : State) : (raise k s).img0 = s.img0 := rfl
@[simp] theorem raise_img1 (k : Kind) (s : State) : (raise k s).img1 = s.img1 := rfl
@[simp] theorem raise_redraws (k : Kind) (s : State) : (raise k s).redraws = s.redraws := rfl
@[simp] theorem raise_pending (k : Kind) (s : State) : (raise k s).pending = s.pending := rfl
@[simp] theorem raise_returned (k : Kind) (s : State) : (raise k s).returned = s.returned := rfl

/-! The result registers and BITS. -/

@[simp] theorem writeRes0_status {n : Nat} (v : BitVec n) (s : State) : (writeRes0 v s).status = s.status := rfl
@[simp] theorem writeRes0_arg0 {n : Nat} (v : BitVec n) (s : State) : (writeRes0 v s).arg0 = s.arg0 := rfl
@[simp] theorem writeRes0_arg1 {n : Nat} (v : BitVec n) (s : State) : (writeRes0 v s).arg1 = s.arg1 := rfl
@[simp] theorem writeRes0_arg2 {n : Nat} (v : BitVec n) (s : State) : (writeRes0 v s).arg2 = s.arg2 := rfl
@[simp] theorem writeRes0_argx {n : Nat} (v : BitVec n) (s : State) : (writeRes0 v s).argx = s.argx := rfl
@[simp] theorem writeRes0_argy {n : Nat} (v : BitVec n) (s : State) : (writeRes0 v s).argy = s.argy := rfl
@[simp] theorem writeRes0_res0 {n : Nat} (v : BitVec n) (s : State) : (writeRes0 v s).res0 = v.setWidth 32 := rfl
@[simp] theorem writeRes0_res1 {n : Nat} (v : BitVec n) (s : State) : (writeRes0 v s).res1 = s.res1 := rfl
@[simp] theorem writeRes0_res2 {n : Nat} (v : BitVec n) (s : State) : (writeRes0 v s).res2 = s.res2 := rfl
@[simp] theorem writeRes0_bits {n : Nat} (v : BitVec n) (s : State) : (writeRes0 v s).bits = s.bits := rfl
@[simp] theorem writeRes0_w0 {n : Nat} (v : BitVec n) (s : State) : (writeRes0 v s).w0 = s.w0 := rfl
@[simp] theorem writeRes0_h0 {n : Nat} (v : BitVec n) (s : State) : (writeRes0 v s).h0 = s.h0 := rfl
@[simp] theorem writeRes0_w1 {n : Nat} (v : BitVec n) (s : State) : (writeRes0 v s).w1 = s.w1 := rfl
@[simp] theorem writeRes0_h1 {n : Nat} (v : BitVec n) (s : State) : (writeRes0 v s).h1 = s.h1 := rfl
@[simp] theorem writeRes0_img0 {n : Nat} (v : BitVec n) (s : State) : (writeRes0 v s).img0 = s.img0 := rfl
@[simp] theorem writeRes0_img1 {n : Nat} (v : BitVec n) (s : State) : (writeRes0 v s).img1 = s.img1 := rfl
@[simp] theorem writeRes0_redraws {n : Nat} (v : BitVec n) (s : State) : (writeRes0 v s).redraws = s.redraws := rfl
@[simp] theorem writeRes0_pending {n : Nat} (v : BitVec n) (s : State) : (writeRes0 v s).pending = s.pending := rfl
@[simp] theorem writeRes0_returned {n : Nat} (v : BitVec n) (s : State) : (writeRes0 v s).returned = s.returned := rfl

@[simp] theorem writeRes_status (p : Pixel) (s : State) : (writeRes p s).status = s.status := rfl
@[simp] theorem writeRes_arg0 (p : Pixel) (s : State) : (writeRes p s).arg0 = s.arg0 := rfl
@[simp] theorem writeRes_arg1 (p : Pixel) (s : State) : (writeRes p s).arg1 = s.arg1 := rfl
@[simp] theorem writeRes_arg2 (p : Pixel) (s : State) : (writeRes p s).arg2 = s.arg2 := rfl
@[simp] theorem writeRes_argx (p : Pixel) (s : State) : (writeRes p s).argx = s.argx := rfl
@[simp] theorem writeRes_argy (p : Pixel) (s : State) : (writeRes p s).argy = s.argy := rfl
@[simp] theorem writeRes_res0 (p : Pixel) (s : State) : (writeRes p s).res0 = p.r.setWidth 32 := rfl
@[simp] theorem writeRes_res1 (p : Pixel) (s : State) : (writeRes p s).res1 = p.g.setWidth 32 := rfl
@[simp] theorem writeRes_res2 (p : Pixel) (s : State) : (writeRes p s).res2 = p.bl.setWidth 32 := rfl
@[simp] theorem writeRes_bits (p : Pixel) (s : State) : (writeRes p s).bits = s.bits := rfl
@[simp] theorem writeRes_w0 (p : Pixel) (s : State) : (writeRes p s).w0 = s.w0 := rfl
@[simp] theorem writeRes_h0 (p : Pixel) (s : State) : (writeRes p s).h0 = s.h0 := rfl
@[simp] theorem writeRes_w1 (p : Pixel) (s : State) : (writeRes p s).w1 = s.w1 := rfl
@[simp] theorem writeRes_h1 (p : Pixel) (s : State) : (writeRes p s).h1 = s.h1 := rfl
@[simp] theorem writeRes_img0 (p : Pixel) (s : State) : (writeRes p s).img0 = s.img0 := rfl
@[simp] theorem writeRes_img1 (p : Pixel) (s : State) : (writeRes p s).img1 = s.img1 := rfl
@[simp] theorem writeRes_redraws (p : Pixel) (s : State) : (writeRes p s).redraws = s.redraws := rfl
@[simp] theorem writeRes_pending (p : Pixel) (s : State) : (writeRes p s).pending = s.pending := rfl
@[simp] theorem writeRes_returned (p : Pixel) (s : State) : (writeRes p s).returned = s.returned := rfl

@[simp] theorem writeBits_status (v : BitSeq) (s : State) : (writeBits v s).status = s.status := rfl
@[simp] theorem writeBits_arg0 (v : BitSeq) (s : State) : (writeBits v s).arg0 = s.arg0 := rfl
@[simp] theorem writeBits_arg1 (v : BitSeq) (s : State) : (writeBits v s).arg1 = s.arg1 := rfl
@[simp] theorem writeBits_arg2 (v : BitSeq) (s : State) : (writeBits v s).arg2 = s.arg2 := rfl
@[simp] theorem writeBits_argx (v : BitSeq) (s : State) : (writeBits v s).argx = s.argx := rfl
@[simp] theorem writeBits_argy (v : BitSeq) (s : State) : (writeBits v s).argy = s.argy := rfl
@[simp] theorem writeBits_res0 (v : BitSeq) (s : State) : (writeBits v s).res0 = s.res0 := rfl
@[simp] theorem writeBits_res1 (v : BitSeq) (s : State) : (writeBits v s).res1 = s.res1 := rfl
@[simp] theorem writeBits_res2 (v : BitSeq) (s : State) : (writeBits v s).res2 = s.res2 := rfl
@[simp] theorem writeBits_bits (v : BitSeq) (s : State) : (writeBits v s).bits = v := rfl
@[simp] theorem writeBits_w0 (v : BitSeq) (s : State) : (writeBits v s).w0 = s.w0 := rfl
@[simp] theorem writeBits_h0 (v : BitSeq) (s : State) : (writeBits v s).h0 = s.h0 := rfl
@[simp] theorem writeBits_w1 (v : BitSeq) (s : State) : (writeBits v s).w1 = s.w1 := rfl
@[simp] theorem writeBits_h1 (v : BitSeq) (s : State) : (writeBits v s).h1 = s.h1 := rfl
@[simp] theorem writeBits_img0 (v : BitSeq) (s : State) : (writeBits v s).img0 = s.img0 := rfl
@[simp] theorem writeBits_img1 (v : BitSeq) (s : State) : (writeBits v s).img1 = s.img1 := rfl
@[simp] theorem writeBits_redraws (v : BitSeq) (s : State) : (writeBits v s).redraws = s.redraws := rfl
@[simp] theorem writeBits_pending (v : BitSeq) (s : State) : (writeBits v s).pending = s.pending := rfl
@[simp] theorem writeBits_returned (v : BitSeq) (s : State) : (writeBits v s).returned = s.returned := rfl

/-! The pixel store. -/

@[simp] theorem setBuffer_status (b : Buf) (v : Buffer) (s : State) : (setBuffer b v s).status = s.status := by cases b <;> rfl
@[simp] theorem setBuffer_arg0 (b : Buf) (v : Buffer) (s : State) : (setBuffer b v s).arg0 = s.arg0 := by cases b <;> rfl
@[simp] theorem setBuffer_arg1 (b : Buf) (v : Buffer) (s : State) : (setBuffer b v s).arg1 = s.arg1 := by cases b <;> rfl
@[simp] theorem setBuffer_arg2 (b : Buf) (v : Buffer) (s : State) : (setBuffer b v s).arg2 = s.arg2 := by cases b <;> rfl
@[simp] theorem setBuffer_argx (b : Buf) (v : Buffer) (s : State) : (setBuffer b v s).argx = s.argx := by cases b <;> rfl
@[simp] theorem setBuffer_argy (b : Buf) (v : Buffer) (s : State) : (setBuffer b v s).argy = s.argy := by cases b <;> rfl
@[simp] theorem setBuffer_res0 (b : Buf) (v : Buffer) (s : State) : (setBuffer b v s).res0 = s.res0 := by cases b <;> rfl
@[simp] theorem setBuffer_res1 (b : Buf) (v : Buffer) (s : State) : (setBuffer b v s).res1 = s.res1 := by cases b <;> rfl
@[simp] theorem setBuffer_res2 (b : Buf) (v : Buffer) (s : State) : (setBuffer b v s).res2 = s.res2 := by cases b <;> rfl
@[simp] theorem setBuffer_bits (b : Buf) (v : Buffer) (s : State) : (setBuffer b v s).bits = s.bits := by cases b <;> rfl
@[simp] theorem setBuffer_w0 (b : Buf) (v : Buffer) (s : State) : (setBuffer b v s).w0 = s.w0 := by cases b <;> rfl
@[simp] theorem setBuffer_h0 (b : Buf) (v : Buffer) (s : State) : (setBuffer b v s).h0 = s.h0 := by cases b <;> rfl
@[simp] theorem setBuffer_w1 (b : Buf) (v : Buffer) (s : State) : (setBuffer b v s).w1 = s.w1 := by cases b <;> rfl
@[simp] theorem setBuffer_h1 (b : Buf) (v : Buffer) (s : State) : (setBuffer b v s).h1 = s.h1 := by cases b <;> rfl
@[simp] theorem setBuffer_redraws (b : Buf) (v : Buffer) (s : State) : (setBuffer b v s).redraws = s.redraws := by cases b <;> rfl
@[simp] theorem setBuffer_pending (b : Buf) (v : Buffer) (s : State) : (setBuffer b v s).pending = s.pending := by cases b <;> rfl
@[simp] theorem setBuffer_returned (b : Buf) (v : Buffer) (s : State) : (setBuffer b v s).returned = s.returned := by cases b <;> rfl

@[simp] theorem writeCells_status (b : Buf) (m : Memory) (s : State) : (writeCells b m s).status = s.status := by cases b <;> rfl
@[simp] theorem writeCells_arg0 (b : Buf) (m : Memory) (s : State) : (writeCells b m s).arg0 = s.arg0 := by cases b <;> rfl
@[simp] theorem writeCells_arg1 (b : Buf) (m : Memory) (s : State) : (writeCells b m s).arg1 = s.arg1 := by cases b <;> rfl
@[simp] theorem writeCells_arg2 (b : Buf) (m : Memory) (s : State) : (writeCells b m s).arg2 = s.arg2 := by cases b <;> rfl
@[simp] theorem writeCells_argx (b : Buf) (m : Memory) (s : State) : (writeCells b m s).argx = s.argx := by cases b <;> rfl
@[simp] theorem writeCells_argy (b : Buf) (m : Memory) (s : State) : (writeCells b m s).argy = s.argy := by cases b <;> rfl
@[simp] theorem writeCells_res0 (b : Buf) (m : Memory) (s : State) : (writeCells b m s).res0 = s.res0 := by cases b <;> rfl
@[simp] theorem writeCells_res1 (b : Buf) (m : Memory) (s : State) : (writeCells b m s).res1 = s.res1 := by cases b <;> rfl
@[simp] theorem writeCells_res2 (b : Buf) (m : Memory) (s : State) : (writeCells b m s).res2 = s.res2 := by cases b <;> rfl
@[simp] theorem writeCells_bits (b : Buf) (m : Memory) (s : State) : (writeCells b m s).bits = s.bits := by cases b <;> rfl
@[simp] theorem writeCells_w0 (b : Buf) (m : Memory) (s : State) : (writeCells b m s).w0 = s.w0 := by cases b <;> rfl
@[simp] theorem writeCells_h0 (b : Buf) (m : Memory) (s : State) : (writeCells b m s).h0 = s.h0 := by cases b <;> rfl
@[simp] theorem writeCells_w1 (b : Buf) (m : Memory) (s : State) : (writeCells b m s).w1 = s.w1 := by cases b <;> rfl
@[simp] theorem writeCells_h1 (b : Buf) (m : Memory) (s : State) : (writeCells b m s).h1 = s.h1 := by cases b <;> rfl
@[simp] theorem writeCells_redraws (b : Buf) (m : Memory) (s : State) : (writeCells b m s).redraws = s.redraws := by cases b <;> rfl
@[simp] theorem writeCells_pending (b : Buf) (m : Memory) (s : State) : (writeCells b m s).pending = s.pending := by cases b <;> rfl
@[simp] theorem writeCells_returned (b : Buf) (m : Memory) (s : State) : (writeCells b m s).returned = s.returned := by cases b <;> rfl

@[simp] theorem writePixel_status (b : Buf) (x y : Coord) (p : Pixel) (s : State) : (writePixel b x y p s).status = s.status := by cases b <;> rfl
@[simp] theorem writePixel_arg0 (b : Buf) (x y : Coord) (p : Pixel) (s : State) : (writePixel b x y p s).arg0 = s.arg0 := by cases b <;> rfl
@[simp] theorem writePixel_arg1 (b : Buf) (x y : Coord) (p : Pixel) (s : State) : (writePixel b x y p s).arg1 = s.arg1 := by cases b <;> rfl
@[simp] theorem writePixel_arg2 (b : Buf) (x y : Coord) (p : Pixel) (s : State) : (writePixel b x y p s).arg2 = s.arg2 := by cases b <;> rfl
@[simp] theorem writePixel_argx (b : Buf) (x y : Coord) (p : Pixel) (s : State) : (writePixel b x y p s).argx = s.argx := by cases b <;> rfl
@[simp] theorem writePixel_argy (b : Buf) (x y : Coord) (p : Pixel) (s : State) : (writePixel b x y p s).argy = s.argy := by cases b <;> rfl
@[simp] theorem writePixel_res0 (b : Buf) (x y : Coord) (p : Pixel) (s : State) : (writePixel b x y p s).res0 = s.res0 := by cases b <;> rfl
@[simp] theorem writePixel_res1 (b : Buf) (x y : Coord) (p : Pixel) (s : State) : (writePixel b x y p s).res1 = s.res1 := by cases b <;> rfl
@[simp] theorem writePixel_res2 (b : Buf) (x y : Coord) (p : Pixel) (s : State) : (writePixel b x y p s).res2 = s.res2 := by cases b <;> rfl
@[simp] theorem writePixel_bits (b : Buf) (x y : Coord) (p : Pixel) (s : State) : (writePixel b x y p s).bits = s.bits := by cases b <;> rfl
@[simp] theorem writePixel_w0 (b : Buf) (x y : Coord) (p : Pixel) (s : State) : (writePixel b x y p s).w0 = s.w0 := by cases b <;> rfl
@[simp] theorem writePixel_h0 (b : Buf) (x y : Coord) (p : Pixel) (s : State) : (writePixel b x y p s).h0 = s.h0 := by cases b <;> rfl
@[simp] theorem writePixel_w1 (b : Buf) (x y : Coord) (p : Pixel) (s : State) : (writePixel b x y p s).w1 = s.w1 := by cases b <;> rfl
@[simp] theorem writePixel_h1 (b : Buf) (x y : Coord) (p : Pixel) (s : State) : (writePixel b x y p s).h1 = s.h1 := by cases b <;> rfl
@[simp] theorem writePixel_redraws (b : Buf) (x y : Coord) (p : Pixel) (s : State) : (writePixel b x y p s).redraws = s.redraws := by cases b <;> rfl
@[simp] theorem writePixel_pending (b : Buf) (x y : Coord) (p : Pixel) (s : State) : (writePixel b x y p s).pending = s.pending := by cases b <;> rfl
@[simp] theorem writePixel_returned (b : Buf) (x y : Coord) (p : Pixel) (s : State) : (writePixel b x y p s).returned = s.returned := by cases b <;> rfl

@[simp] theorem writeImage_status (b : Buf) (f : Image) (s : State) : (writeImage b f s).status = s.status := by cases b <;> rfl
@[simp] theorem writeImage_arg0 (b : Buf) (f : Image) (s : State) : (writeImage b f s).arg0 = s.arg0 := by cases b <;> rfl
@[simp] theorem writeImage_arg1 (b : Buf) (f : Image) (s : State) : (writeImage b f s).arg1 = s.arg1 := by cases b <;> rfl
@[simp] theorem writeImage_arg2 (b : Buf) (f : Image) (s : State) : (writeImage b f s).arg2 = s.arg2 := by cases b <;> rfl
@[simp] theorem writeImage_argx (b : Buf) (f : Image) (s : State) : (writeImage b f s).argx = s.argx := by cases b <;> rfl
@[simp] theorem writeImage_argy (b : Buf) (f : Image) (s : State) : (writeImage b f s).argy = s.argy := by cases b <;> rfl
@[simp] theorem writeImage_res0 (b : Buf) (f : Image) (s : State) : (writeImage b f s).res0 = s.res0 := by cases b <;> rfl
@[simp] theorem writeImage_res1 (b : Buf) (f : Image) (s : State) : (writeImage b f s).res1 = s.res1 := by cases b <;> rfl
@[simp] theorem writeImage_res2 (b : Buf) (f : Image) (s : State) : (writeImage b f s).res2 = s.res2 := by cases b <;> rfl
@[simp] theorem writeImage_bits (b : Buf) (f : Image) (s : State) : (writeImage b f s).bits = s.bits := by cases b <;> rfl
@[simp] theorem writeImage_w0 (b : Buf) (f : Image) (s : State) : (writeImage b f s).w0 = s.w0 := by cases b <;> rfl
@[simp] theorem writeImage_h0 (b : Buf) (f : Image) (s : State) : (writeImage b f s).h0 = s.h0 := by cases b <;> rfl
@[simp] theorem writeImage_w1 (b : Buf) (f : Image) (s : State) : (writeImage b f s).w1 = s.w1 := by cases b <;> rfl
@[simp] theorem writeImage_h1 (b : Buf) (f : Image) (s : State) : (writeImage b f s).h1 = s.h1 := by cases b <;> rfl
@[simp] theorem writeImage_redraws (b : Buf) (f : Image) (s : State) : (writeImage b f s).redraws = s.redraws := by cases b <;> rfl
@[simp] theorem writeImage_pending (b : Buf) (f : Image) (s : State) : (writeImage b f s).pending = s.pending := by cases b <;> rfl
@[simp] theorem writeImage_returned (b : Buf) (f : Image) (s : State) : (writeImage b f s).returned = s.returned := by cases b <;> rfl

@[simp] theorem redrawBuffer_status (b : Buf) (s : State) : (redrawBuffer b s).status = s.status := by cases b <;> rfl
@[simp] theorem redrawBuffer_arg0 (b : Buf) (s : State) : (redrawBuffer b s).arg0 = s.arg0 := by cases b <;> rfl
@[simp] theorem redrawBuffer_arg1 (b : Buf) (s : State) : (redrawBuffer b s).arg1 = s.arg1 := by cases b <;> rfl
@[simp] theorem redrawBuffer_arg2 (b : Buf) (s : State) : (redrawBuffer b s).arg2 = s.arg2 := by cases b <;> rfl
@[simp] theorem redrawBuffer_argx (b : Buf) (s : State) : (redrawBuffer b s).argx = s.argx := by cases b <;> rfl
@[simp] theorem redrawBuffer_argy (b : Buf) (s : State) : (redrawBuffer b s).argy = s.argy := by cases b <;> rfl
@[simp] theorem redrawBuffer_res0 (b : Buf) (s : State) : (redrawBuffer b s).res0 = s.res0 := by cases b <;> rfl
@[simp] theorem redrawBuffer_res1 (b : Buf) (s : State) : (redrawBuffer b s).res1 = s.res1 := by cases b <;> rfl
@[simp] theorem redrawBuffer_res2 (b : Buf) (s : State) : (redrawBuffer b s).res2 = s.res2 := by cases b <;> rfl
@[simp] theorem redrawBuffer_bits (b : Buf) (s : State) : (redrawBuffer b s).bits = s.bits := by cases b <;> rfl
@[simp] theorem redrawBuffer_w0 (b : Buf) (s : State) : (redrawBuffer b s).w0 = s.w0 := by cases b <;> rfl
@[simp] theorem redrawBuffer_h0 (b : Buf) (s : State) : (redrawBuffer b s).h0 = s.h0 := by cases b <;> rfl
@[simp] theorem redrawBuffer_w1 (b : Buf) (s : State) : (redrawBuffer b s).w1 = s.w1 := by cases b <;> rfl
@[simp] theorem redrawBuffer_h1 (b : Buf) (s : State) : (redrawBuffer b s).h1 = s.h1 := by cases b <;> rfl
@[simp] theorem redrawBuffer_redraws (b : Buf) (s : State) : (redrawBuffer b s).redraws = s.redraws + 1 := by cases b <;> rfl
@[simp] theorem redrawBuffer_pending (b : Buf) (s : State) : (redrawBuffer b s).pending = s.pending := by cases b <;> rfl
@[simp] theorem redrawBuffer_returned (b : Buf) (s : State) : (redrawBuffer b s).returned = s.returned := by cases b <;> rfl

/-! The reads of HOST. -/

@[simp] theorem hostRead_status (r : Reg) (s : State) : (hostRead r s).status = s.status := rfl
@[simp] theorem hostRead_arg0 (r : Reg) (s : State) : (hostRead r s).arg0 = s.arg0 := rfl
@[simp] theorem hostRead_arg1 (r : Reg) (s : State) : (hostRead r s).arg1 = s.arg1 := rfl
@[simp] theorem hostRead_arg2 (r : Reg) (s : State) : (hostRead r s).arg2 = s.arg2 := rfl
@[simp] theorem hostRead_argx (r : Reg) (s : State) : (hostRead r s).argx = s.argx := rfl
@[simp] theorem hostRead_argy (r : Reg) (s : State) : (hostRead r s).argy = s.argy := rfl
@[simp] theorem hostRead_res0 (r : Reg) (s : State) : (hostRead r s).res0 = s.res0 := rfl
@[simp] theorem hostRead_res1 (r : Reg) (s : State) : (hostRead r s).res1 = s.res1 := rfl
@[simp] theorem hostRead_res2 (r : Reg) (s : State) : (hostRead r s).res2 = s.res2 := rfl
@[simp] theorem hostRead_bits (r : Reg) (s : State) : (hostRead r s).bits = s.bits := rfl
@[simp] theorem hostRead_w0 (r : Reg) (s : State) : (hostRead r s).w0 = s.w0 := rfl
@[simp] theorem hostRead_h0 (r : Reg) (s : State) : (hostRead r s).h0 = s.h0 := rfl
@[simp] theorem hostRead_w1 (r : Reg) (s : State) : (hostRead r s).w1 = s.w1 := rfl
@[simp] theorem hostRead_h1 (r : Reg) (s : State) : (hostRead r s).h1 = s.h1 := rfl
@[simp] theorem hostRead_img0 (r : Reg) (s : State) : (hostRead r s).img0 = s.img0 := rfl
@[simp] theorem hostRead_img1 (r : Reg) (s : State) : (hostRead r s).img1 = s.img1 := rfl
@[simp] theorem hostRead_redraws (r : Reg) (s : State) : (hostRead r s).redraws = s.redraws := rfl
@[simp] theorem hostRead_pending (r : Reg) (s : State) : (hostRead r s).pending = s.pending := rfl
@[simp] theorem hostRead_returned (r : Reg) (s : State) : (hostRead r s).returned = readReg r s :: s.returned := rfl

/-! The accessors of a buffer after each update. -/

@[simp] theorem buffer_img0 (s : State) : buffer s .img0 = s.img0 := rfl
@[simp] theorem buffer_img1 (s : State) : buffer s .img1 = s.img1 := rfl
@[simp] theorem width_img0 (s : State) : width s .img0 = s.w0 := rfl
@[simp] theorem width_img1 (s : State) : width s .img1 = s.w1 := rfl
@[simp] theorem height_img0 (s : State) : height s .img0 = s.h0 := rfl
@[simp] theorem height_img1 (s : State) : height s .img1 = s.h1 := rfl
@[simp] theorem buffer_complete (s : State) (a : Buf) : buffer (complete s) a = buffer s a := by cases a <;> rfl
@[simp] theorem width_complete (s : State) (a : Buf) : width (complete s) a = width s a := by cases a <;> rfl
@[simp] theorem height_complete (s : State) (a : Buf) : height (complete s) a = height s a := by cases a <;> rfl
@[simp] theorem buffer_raise (k : Kind) (s : State) (a : Buf) : buffer (raise k s) a = buffer s a := by cases a <;> rfl
@[simp] theorem width_raise (k : Kind) (s : State) (a : Buf) : width (raise k s) a = width s a := by cases a <;> rfl
@[simp] theorem height_raise (k : Kind) (s : State) (a : Buf) : height (raise k s) a = height s a := by cases a <;> rfl
@[simp] theorem buffer_writeRes0 {n : Nat} (v : BitVec n) (s : State) (a : Buf) : buffer (writeRes0 v s) a = buffer s a := by cases a <;> rfl
@[simp] theorem width_writeRes0 {n : Nat} (v : BitVec n) (s : State) (a : Buf) : width (writeRes0 v s) a = width s a := by cases a <;> rfl
@[simp] theorem height_writeRes0 {n : Nat} (v : BitVec n) (s : State) (a : Buf) : height (writeRes0 v s) a = height s a := by cases a <;> rfl
@[simp] theorem buffer_writeRes (p : Pixel) (s : State) (a : Buf) : buffer (writeRes p s) a = buffer s a := by cases a <;> rfl
@[simp] theorem width_writeRes (p : Pixel) (s : State) (a : Buf) : width (writeRes p s) a = width s a := by cases a <;> rfl
@[simp] theorem height_writeRes (p : Pixel) (s : State) (a : Buf) : height (writeRes p s) a = height s a := by cases a <;> rfl
@[simp] theorem buffer_writeBits (v : BitSeq) (s : State) (a : Buf) : buffer (writeBits v s) a = buffer s a := by cases a <;> rfl
@[simp] theorem width_writeBits (v : BitSeq) (s : State) (a : Buf) : width (writeBits v s) a = width s a := by cases a <;> rfl
@[simp] theorem height_writeBits (v : BitSeq) (s : State) (a : Buf) : height (writeBits v s) a = height s a := by cases a <;> rfl
@[simp] theorem buffer_hostRead (r : Reg) (s : State) (a : Buf) : buffer (hostRead r s) a = buffer s a := by cases a <;> rfl
@[simp] theorem width_hostRead (r : Reg) (s : State) (a : Buf) : width (hostRead r s) a = width s a := by cases a <;> rfl
@[simp] theorem height_hostRead (r : Reg) (s : State) (a : Buf) : height (hostRead r s) a = height s a := by cases a <;> rfl
@[simp] theorem width_setBuffer (b : Buf) (v : Buffer) (s : State) (a : Buf) :
    width (setBuffer b v s) a = width s a := by cases a <;> cases b <;> rfl
@[simp] theorem height_setBuffer (b : Buf) (v : Buffer) (s : State) (a : Buf) :
    height (setBuffer b v s) a = height s a := by cases a <;> cases b <;> rfl
@[simp] theorem width_writeCells (b : Buf) (m : Memory) (s : State) (a : Buf) :
    width (writeCells b m s) a = width s a := by cases a <;> cases b <;> rfl
@[simp] theorem height_writeCells (b : Buf) (m : Memory) (s : State) (a : Buf) :
    height (writeCells b m s) a = height s a := by cases a <;> cases b <;> rfl
@[simp] theorem width_writePixel (b : Buf) (x y : Coord) (p : Pixel) (s : State) (a : Buf) :
    width (writePixel b x y p s) a = width s a := by cases a <;> cases b <;> rfl
@[simp] theorem height_writePixel (b : Buf) (x y : Coord) (p : Pixel) (s : State) (a : Buf) :
    height (writePixel b x y p s) a = height s a := by cases a <;> cases b <;> rfl
@[simp] theorem width_writeImage (b : Buf) (f : Image) (s : State) (a : Buf) :
    width (writeImage b f s) a = width s a := by cases a <;> cases b <;> rfl
@[simp] theorem height_writeImage (b : Buf) (f : Image) (s : State) (a : Buf) :
    height (writeImage b f s) a = height s a := by cases a <;> cases b <;> rfl
@[simp] theorem width_redrawBuffer (b : Buf) (s : State) (a : Buf) :
    width (redrawBuffer b s) a = width s a := by cases a <;> cases b <;> rfl
@[simp] theorem height_redrawBuffer (b : Buf) (s : State) (a : Buf) :
    height (redrawBuffer b s) a = height s a := by cases a <;> cases b <;> rfl

theorem buffer_setBuffer (b : Buf) (v : Buffer) (s : State) (a : Buf) :
    buffer (setBuffer b v s) a = if a = b then v else buffer s a := by
  cases a <;> cases b <;> rfl

@[simp] theorem buffer_setBuffer_self (b : Buf) (v : Buffer) (s : State) : buffer (setBuffer b v s) b = v := by
  cases b <;> rfl

theorem buffer_redrawBuffer (b : Buf) (s : State) (a : Buf) :
    buffer (redrawBuffer b s) a = if a = b then ⟨.redraw s.redraws, []⟩ else buffer s a := by
  cases a <;> cases b <;> rfl

end Sys2Proof.Machine
end

