-- ==== Sys2Proof/Laws/Memory.lean ====
section
/-! SUPPORT. The pixel store: a write is read back where it went and nowhere else, and every write keeps the canonical form. -/

namespace Sys2Proof.Machine

/-! Cell numbers. -/

theorem chanIndex_lt (c : Chan) : chanIndex c < 3 := by cases c <;> decide

theorem chanIndex_inj {c d : Chan} (h : chanIndex c = chanIndex d) : c = d := by
  cases c <;> cases d <;> first | rfl | cases h

theorem cellKey_lt (x y : Coord) (c : Chan) : cellKey x y c < cellSpace := by
  have := chanIndex_lt c
  unfold cellKey cellSpace
  omega

/-- Distinct bytes of a buffer have distinct cell numbers. -/
theorem cellKey_inj {x y x' y' : Coord} {c c' : Chan} (h : cellKey x y c = cellKey x' y' c') :
    x = x' ∧ y = y' ∧ c = c' := by
  have := chanIndex_lt c
  have := chanIndex_lt c'
  unfold cellKey at h
  exact ⟨BitVec.eq_of_toNat_eq (by omega), BitVec.eq_of_toNat_eq (by omega), chanIndex_inj (by omega)⟩

/-! Reading a list of cells. -/

/-- A rising list of cells. -/
abbrev Rising (m : Memory) : Prop := m.Pairwise (fun a b => a.1 < b.1)

@[simp] theorem Memory.cellAt_nil (k : Nat) : Memory.cellAt [] k = none := rfl

theorem Memory.cellAt_cons (k' : Nat) (v : Byte) (m : Memory) (k : Nat) :
    Memory.cellAt ((k', v) :: m) k = if k' = k then some v else Memory.cellAt m k := rfl

theorem Memory.cellAt_eq_none {m : Memory} {k : Nat} (h : ∀ a ∈ m, a.1 ≠ k) : Memory.cellAt m k = none := by
  induction m with
  | nil => rfl
  | cons a m ih =>
    rw [Memory.cellAt_cons, if_neg (h a (by simp))]
    exact ih fun b hb => h b (by simp [hb])

theorem Memory.cellAt_eq_some_of_mem {m : Memory} (hm : Rising m) {k : Nat} {v : Byte} (h : (k, v) ∈ m) :
    Memory.cellAt m k = some v := by
  induction m with
  | nil => cases h
  | cons a m ih =>
    obtain ⟨ha, hm⟩ := List.pairwise_cons.mp hm
    rw [Memory.cellAt_cons]
    rcases List.mem_cons.mp h with h | h
    · simp [← h]
    · rw [if_neg (Nat.ne_of_lt (ha _ h)), ih hm h]

/-! Writing a list of cells. -/

/-- A cell of `overlay new old` is the cell of `new` where there is one, else the cell of `old`. -/
theorem Memory.cellAt_overlay {new : Memory} (hn : Rising new) (old : Memory) (j : Nat) :
    (Memory.overlay new old).cellAt j = (Memory.cellAt new j).or (Memory.cellAt old j) := by
  induction new generalizing old with
  | nil => rfl
  | cons a new ih =>
    obtain ⟨k, v⟩ := a
    obtain ⟨hk, hn⟩ := List.pairwise_cons.mp hn
    have below : j < k → Memory.cellAt new j = none := fun hj =>
      Memory.cellAt_eq_none fun b hb => Nat.ne_of_gt (Nat.lt_trans hj (hk b hb))
    have aside (m : Memory) : (Memory.cellAt ((k, v) :: Memory.overlay new m) j) =
        (Memory.cellAt ((k, v) :: new) j).or (Memory.cellAt m j) := by
      rw [Memory.cellAt_cons, Memory.cellAt_cons, ih hn]
      split <;> rfl
    show (Memory.splice k v (Memory.overlay new) old).cellAt j = _
    induction old with
    | nil => exact aside []
    | cons b old ihold =>
      obtain ⟨k', v'⟩ := b
      unfold Memory.splice
      split
      · rename_i hlt
        rw [Memory.cellAt_cons, ihold, Memory.cellAt_cons k' v']
        split
        · rename_i hj
          rw [Memory.cellAt_cons, if_neg (by omega), below (by omega)]
          rfl
        · rfl
      · split
        · rename_i _ hkk
          rw [aside, Memory.cellAt_cons k v, Memory.cellAt_cons k' v', hkk]
          split <;> rfl
        · exact aside _

theorem Memory.mem_splice {k : Nat} {v : Byte} {rest : Memory → Memory} {old : Memory} {a : Host.Cell}
    (hr : ∀ m, a ∈ rest m → a ∈ rest [] ∨ a ∈ m) (h : a ∈ Memory.splice k v rest old) :
    a = (k, v) ∨ a ∈ rest [] ∨ a ∈ old := by
  induction old with
  | nil => rcases List.mem_cons.mp h with h | h <;> tauto
  | cons b old ih =>
    obtain ⟨k', v'⟩ := b
    unfold Memory.splice at h
    split at h
    · rcases List.mem_cons.mp h with h | h
      · simp [h]
      · rcases ih h with h | h | h <;> simp [h]
    · split at h
      · rcases List.mem_cons.mp h with h | h
        · simp [h]
        · rcases hr _ h with h | h <;> simp [h]
      · rcases List.mem_cons.mp h with h | h
        · simp [h]
        · rcases hr _ h with h | h
          · simp [h]
          · exact .inr (.inr h)

theorem Memory.overlay_nil (new : Memory) : Memory.overlay new [] = new := by
  induction new with
  | nil => rfl
  | cons a new ih => exact congrArg (a :: ·) ih

/-- `overlay` lists no cell that neither of its arguments lists. -/
theorem Memory.mem_overlay {new old : Memory} {a : Host.Cell} (h : a ∈ Memory.overlay new old) :
    a ∈ new ∨ a ∈ old := by
  induction new generalizing old with
  | nil => exact .inr h
  | cons b new ih =>
    have hr : ∀ m, a ∈ Memory.overlay new m → a ∈ Memory.overlay new [] ∨ a ∈ m := fun m hm =>
      (ih hm).imp_left fun h => by rwa [Memory.overlay_nil]
    rcases Memory.mem_splice hr h with h | h | h
    · simp [h]
    · rw [Memory.overlay_nil] at h
      simp [h]
    · exact .inr h

/-- Writing a rising list of cells over a rising list gives a rising list. -/
theorem Memory.rising_overlay {new old : Memory} (hn : Rising new) (ho : Rising old) :
    Rising (Memory.overlay new old) := by
  induction new generalizing old with
  | nil => exact ho
  | cons a new ih =>
    obtain ⟨k, v⟩ := a
    obtain ⟨hk, hn⟩ := List.pairwise_cons.mp hn
    have aside {m : Memory} (hm : Rising m) (hkm : ∀ b ∈ m, k < b.1) : Rising ((k, v) :: Memory.overlay new m) :=
      List.pairwise_cons.mpr ⟨fun b hb => (Memory.mem_overlay hb).elim (hk b) (hkm b), ih hn hm⟩
    show Rising (Memory.splice k v (Memory.overlay new) old)
    induction old with
    | nil => exact aside .nil (by simp)
    | cons b old ihold =>
      obtain ⟨k', v'⟩ := b
      obtain ⟨hk', ho'⟩ := List.pairwise_cons.mp ho
      unfold Memory.splice
      split
      · rename_i hlt
        refine List.pairwise_cons.mpr ⟨fun b hb => ?_, ihold ho'⟩
        have hr : ∀ m, b ∈ Memory.overlay new m → b ∈ Memory.overlay new [] ∨ b ∈ m := fun m hm =>
          (Memory.mem_overlay hm).imp_left fun h => by rwa [Memory.overlay_nil]
        rcases Memory.mem_splice hr hb with h | h | h
        · simpa [h] using hlt
        · rw [Memory.overlay_nil] at h
          exact Nat.lt_trans hlt (hk b h)
        · exact hk' b h
      · split
        · rename_i _ hkk
          exact aside ho' fun b hb => hkk ▸ hk' b hb
        · refine aside ho fun b hb => ?_
          rcases List.mem_cons.mp hb with h | h
          · simp only [h]
            omega
          · have := hk' b h
            dsimp only at this
            omega

/-- Every write keeps the canonical form. -/
theorem Memory.wf_overlay {new old : Memory} (hn : new.wf) (ho : old.wf) : (Memory.overlay new old).wf :=
  ⟨Memory.rising_overlay hn.1 ho.1, fun a h => (Memory.mem_overlay h).elim (hn.2 a) (ho.2 a)⟩

/-! The cells of a pixel and of an image. -/

theorem mem_pixelCells {x y : Coord} {p : Pixel} {a : Host.Cell} :
    a ∈ pixelCells x y p ↔ ∃ c, a = (cellKey x y c, chanOf p c) := by
  constructor
  · intro h
    simp only [pixelCells, List.mem_cons, List.not_mem_nil, or_false] at h
    rcases h with h | h | h
    · exact ⟨.red, h⟩
    · exact ⟨.green, h⟩
    · exact ⟨.blue, h⟩
  · rintro ⟨c, rfl⟩
    cases c <;> simp [pixelCells, chanOf]

theorem rising_pixelCells (x y : Coord) (p : Pixel) : Rising (pixelCells x y p) := by
  simp [pixelCells, cellKey, chanIndex]

theorem wf_pixelCells (x y : Coord) (p : Pixel) : Memory.wf (pixelCells x y p) :=
  ⟨rising_pixelCells x y p, fun a h => by
    obtain ⟨c, rfl⟩ := mem_pixelCells.mp h
    exact cellKey_lt x y c⟩

theorem cellAt_pixelCells (x y : Coord) (p : Pixel) (x' y' : Coord) (c : Chan) :
    Memory.cellAt (pixelCells x y p) (cellKey x' y' c) = if x' = x ∧ y' = y then some (chanOf p c) else none := by
  split
  · rename_i h
    exact Memory.cellAt_eq_some_of_mem (rising_pixelCells x y p) (mem_pixelCells.mpr ⟨c, by rw [h.1, h.2]⟩)
  · rename_i h
    refine Memory.cellAt_eq_none fun a ha hk => h ?_
    obtain ⟨d, rfl⟩ := mem_pixelCells.mp ha
    obtain ⟨hx, hy, -⟩ := cellKey_inj hk
    exact ⟨hx.symm, hy.symm⟩

theorem coord_ofNat_toNat (x : Coord) : BitVec.ofNat 31 x.toNat = x := by simp

theorem coord_toNat_ofNat {n : Nat} {w : Dim} (h : n < w.toNat) : (BitVec.ofNat 31 n).toNat = n := by
  have := w.isLt
  simp only [BitVec.toNat_ofNat]
  omega

/-- The cells of an image are those of the pixels below its width and its height. -/
theorem mem_imageCells {w h : Dim} {f : Image} {a : Host.Cell} :
    a ∈ imageCells w h f ↔
      ∃ x y : Coord, x.toNat < w.toNat ∧ y.toNat < h.toNat ∧ ∃ c, a = (cellKey x y c, chanOf (f x y) c) := by
  simp only [imageCells, List.mem_flatMap, List.mem_range, mem_pixelCells]
  constructor
  · rintro ⟨y, hy, x, hx, ha⟩
    exact ⟨_, _, by rwa [coord_toNat_ofNat hx], by rwa [coord_toNat_ofNat hy], ha⟩
  · rintro ⟨x, y, hx, hy, ha⟩
    exact ⟨y.toNat, hy, x.toNat, hx, by simpa only [coord_ofNat_toNat] using ha⟩

theorem rising_imageCells (w h : Dim) (f : Image) : Rising (imageCells w h f) := by
  unfold imageCells Rising
  refine List.pairwise_flatMap.mpr ⟨fun y hy => List.pairwise_flatMap.mpr ⟨fun x _ => rising_pixelCells _ _ _, ?_⟩, ?_⟩
  · refine List.pairwise_lt_range.imp_of_mem fun {x x'} hx hx' hlt a ha b hb => ?_
    obtain ⟨c, rfl⟩ := mem_pixelCells.mp ha
    obtain ⟨d, rfl⟩ := mem_pixelCells.mp hb
    have := chanIndex_lt c
    simp only [cellKey, coord_toNat_ofNat (List.mem_range.mp hx), coord_toNat_ofNat (List.mem_range.mp hx')]
    omega
  · refine List.pairwise_lt_range.imp_of_mem fun {y y'} hy hy' hlt a ha b hb => ?_
    obtain ⟨x, hx, ha⟩ := List.mem_flatMap.mp ha
    obtain ⟨x', hx', hb⟩ := List.mem_flatMap.mp hb
    obtain ⟨c, rfl⟩ := mem_pixelCells.mp ha
    obtain ⟨d, rfl⟩ := mem_pixelCells.mp hb
    have := chanIndex_lt c
    have := w.isLt
    simp only [cellKey, coord_toNat_ofNat (List.mem_range.mp hx), coord_toNat_ofNat (List.mem_range.mp hx'),
      coord_toNat_ofNat (List.mem_range.mp hy), coord_toNat_ofNat (List.mem_range.mp hy')]
    have := List.mem_range.mp hx
    omega

theorem wf_imageCells (w h : Dim) (f : Image) : Memory.wf (imageCells w h f) :=
  ⟨rising_imageCells w h f, fun a ha => by
    obtain ⟨x, y, -, -, c, rfl⟩ := mem_imageCells.mp ha
    exact cellKey_lt x y c⟩

theorem cellAt_imageCells (w h : Dim) (f : Image) (x y : Coord) (c : Chan) :
    Memory.cellAt (imageCells w h f) (cellKey x y c) =
      if x.toNat < w.toNat ∧ y.toNat < h.toNat then some (chanOf (f x y) c) else none := by
  split
  · rename_i hxy
    exact Memory.cellAt_eq_some_of_mem (rising_imageCells w h f) (mem_imageCells.mpr ⟨x, y, hxy.1, hxy.2, c, rfl⟩)
  · rename_i hxy
    refine Memory.cellAt_eq_none fun a ha hk => hxy ?_
    obtain ⟨x', y', hx, hy, d, rfl⟩ := mem_imageCells.mp ha
    obtain ⟨rfl, rfl, -⟩ := cellKey_inj hk
    exact ⟨hx, hy⟩

/-! Reading one byte of the store after each update. -/

theorem byteAt_congr {s t : State} (b : Buf) (h : buffer t b = buffer s b) (x y : Coord) (c : Chan) :
    byteAt t b x y c = byteAt s b x y c := by
  unfold byteAt
  rw [h]

@[simp] theorem byteAt_complete (s : State) (b : Buf) (x y : Coord) (c : Chan) :
    byteAt (complete s) b x y c = byteAt s b x y c := byteAt_congr b (by simp) x y c

@[simp] theorem byteAt_raise (k : Kind) (s : State) (b : Buf) (x y : Coord) (c : Chan) :
    byteAt (raise k s) b x y c = byteAt s b x y c := byteAt_congr b (by simp) x y c

@[simp] theorem byteAt_writeRes0 {n : Nat} (v : BitVec n) (s : State) (b : Buf) (x y : Coord) (c : Chan) :
    byteAt (writeRes0 v s) b x y c = byteAt s b x y c := byteAt_congr b (by simp) x y c

@[simp] theorem byteAt_writeRes (p : Pixel) (s : State) (b : Buf) (x y : Coord) (c : Chan) :
    byteAt (writeRes p s) b x y c = byteAt s b x y c := byteAt_congr b (by simp) x y c

@[simp] theorem byteAt_writeBits (v : BitSeq) (s : State) (b : Buf) (x y : Coord) (c : Chan) :
    byteAt (writeBits v s) b x y c = byteAt s b x y c := byteAt_congr b (by simp) x y c

@[simp] theorem chanOf_readPixel (s : State) (b : Buf) (x y : Coord) (c : Chan) :
    chanOf (readPixel s b x y) c = byteAt s b x y c := by cases c <;> rfl

theorem byteAt_writeCells {m : Memory} (hm : Rising m) (a : Buf) (s : State) (b : Buf) (x y : Coord) (c : Chan) :
    byteAt (writeCells a m s) b x y c =
      if b = a then (Memory.cellAt m (cellKey x y c)).getD (byteAt s b x y c) else byteAt s b x y c := by
  unfold byteAt writeCells
  rw [buffer_setBuffer]
  by_cases h : b = a
  · subst h
    simp only [if_pos, Memory.cellAt_overlay hm]
    cases Memory.cellAt m (cellKey x y c) <;> rfl
  · simp only [if_neg h]

/-- A pixel write is read back at its own pixel, and every other byte of both buffers is as before. -/
theorem byteAt_writePixel (a : Buf) (x' y' : Coord) (p : Pixel) (s : State) (b : Buf) (x y : Coord) (c : Chan) :
    byteAt (writePixel a x' y' p s) b x y c =
      if b = a ∧ x = x' ∧ y = y' then chanOf p c else byteAt s b x y c := by
  unfold writePixel
  rw [byteAt_writeCells (rising_pixelCells x' y' p), cellAt_pixelCells]
  by_cases hb : b = a <;> by_cases hxy : x = x' ∧ y = y' <;> simp [hb, hxy]

/-- An image write gives every byte of the buffer's image its new value, and every other byte is as before. -/
theorem byteAt_writeImage (a : Buf) (f : Image) (s : State) (b : Buf) (x y : Coord) (c : Chan) :
    byteAt (writeImage a f s) b x y c =
      if b = a ∧ x.toNat < (width s a).toNat ∧ y.toNat < (height s a).toNat then chanOf (f x y) c
      else byteAt s b x y c := by
  unfold writeImage
  rw [byteAt_writeCells (rising_imageCells _ _ f), cellAt_imageCells]
  by_cases hb : b = a <;> by_cases hxy : x.toNat < (width s a).toNat ∧ y.toNat < (height s a).toNat <;> simp [hb, hxy]

/-- After a dimension write every byte of the buffer is the fresh draw's, and the other buffer is as before. -/
theorem byteAt_redrawBuffer (a : Buf) (s : State) (b : Buf) (x y : Coord) (c : Chan) :
    byteAt (redrawBuffer a s) b x y c =
      if b = a then chanOf (Config.pixRedraw s.redraws b x y) c else byteAt s b x y c := by
  unfold byteAt
  rw [buffer_redrawBuffer]
  by_cases h : b = a <;> simp [h, fillPixel]

/-! The canonical form after each update. -/

theorem wf_writeCells {a b : Buf} {m : Memory} {s : State} (hm : m.wf) (hs : (buffer s b).cells.wf) :
    (buffer (writeCells a m s) b).cells.wf := by
  unfold writeCells
  rw [buffer_setBuffer]
  by_cases h : b = a
  · subst h
    simpa only [if_pos] using Memory.wf_overlay hm hs
  · simpa only [if_neg h] using hs

theorem wf_writePixel {a b : Buf} {x y : Coord} {p : Pixel} {s : State} (hs : (buffer s b).cells.wf) :
    (buffer (writePixel a x y p s) b).cells.wf := wf_writeCells (wf_pixelCells x y p) hs

theorem wf_writeImage {a b : Buf} {f : Image} {s : State} (hs : (buffer s b).cells.wf) :
    (buffer (writeImage a f s) b).cells.wf := wf_writeCells (wf_imageCells _ _ f) hs

theorem wf_redrawBuffer {a b : Buf} {s : State} (hs : (buffer s b).cells.wf) :
    (buffer (redrawBuffer a s) b).cells.wf := by
  rw [buffer_redrawBuffer]
  split
  · exact ⟨.nil, by simp⟩
  · exact hs

/-- A write leaves a buffer's unspecified content what it was. -/
theorem fill_writeCells (a : Buf) (m : Memory) (s : State) (b : Buf) :
    (buffer (writeCells a m s) b).fill = (buffer s b).fill := by
  unfold writeCells
  rw [buffer_setBuffer]
  by_cases h : b = a <;> simp [h]

end Sys2Proof.Machine
end

