-- ==== Sys2Proof/Laws/Operands.lean ====
section
/-! SUPPORT. What each operand form reads, in terms of the register's value. -/

namespace Sys2Proof.Machine

/-- `sint` is the two's-complement reading of a word. -/
theorem sint_eq_toInt (w : Word) : sint w = w.toInt := by
  rw [BitVec.toInt_eq_toNat_cond]
  unfold sint
  split <;> split <;> omega

theorem sint_nonneg_iff (w : Word) : 0 ≤ sint w ↔ w.toNat < 2 ^ 31 := by
  have := w.isLt
  unfold sint
  split <;> omega

theorem sint_of_lt {w : Word} (h : w.toNat < 2 ^ 31) : sint w = w.toNat := if_pos h

/-- A register holds a valid channel operand exactly when its word is at most 255. -/
theorem validChannel_sint (w : Word) : validChannel (sint w) ↔ w.toNat < 256 := by
  have := w.isLt
  unfold validChannel sint
  split <;> omega

theorem channel_of_valid {w : Word} (h : w.toNat < 256) : channel w = .ok (w.setWidth 8) := by
  unfold channel
  rw [if_pos ((validChannel_sint w).mpr h), sint_of_lt (by omega)]
  congr 1

theorem channel_of_invalid {w : Word} (h : ¬ w.toNat < 256) : channel w = .error .invalidChannelValue :=
  if_neg (mt (validChannel_sint w).mp h)

/-- A channel operand is read exactly, never truncated. -/
theorem channel_eq_ok {w : Word} {n : Byte} (h : channel w = .ok n) : w.toNat < 256 ∧ n.toNat = w.toNat := by
  by_cases hw : w.toNat < 256
  · rw [channel_of_valid hw] at h
    cases h
    exact ⟨hw, by simp [Nat.mod_eq_of_lt hw]⟩
  · rw [channel_of_invalid hw] at h
    cases h

theorem channel_eq_error {w : Word} {k : Kind} (h : channel w = .error k) :
    ¬ w.toNat < 256 ∧ k = .invalidChannelValue := by
  by_cases hw : w.toNat < 256
  · rw [channel_of_valid hw] at h
    cases h
  · rw [channel_of_invalid hw] at h
    cases h
    exact ⟨hw, rfl⟩

theorem threeBits_of_le {n : Byte} (h : n.toNat ≤ 7) : threeBits n = .ok (n.setWidth 3) := by
  unfold threeBits
  rw [if_neg (by omega)]
  congr 1

theorem threeBits_of_gt {n : Byte} (h : 7 < n.toNat) : threeBits n = .error .invalidOperand := if_pos h

/-- A coordinate pair is in bounds exactly when the two words, unsigned, are below the width and the height. -/
theorem inBounds_sint (s : State) (b : Buf) (x y : Word) :
    inBounds s b (sint x) (sint y) ↔ x.toNat < (width s b).toNat ∧ y.toNat < (height s b).toNat := by
  have := x.isLt
  have := y.isLt
  have := (width s b).isLt
  have := (height s b).isLt
  unfold inBounds sint
  split <;> split <;> omega

theorem pixelAddress_of_inBounds {b : Buf} {s : State}
    (h : s.argx.toNat < (width s b).toNat ∧ s.argy.toNat < (height s b).toNat) :
    pixelAddress b s = .ok (s.argx.setWidth 31, s.argy.setWidth 31) := by
  have := (width s b).isLt
  have := (height s b).isLt
  unfold pixelAddress
  rw [if_pos ((inBounds_sint s b _ _).mpr h), sint_of_lt (by omega), sint_of_lt (by omega)]
  congr 1

theorem pixelAddress_of_outOfBounds {b : Buf} {s : State}
    (h : ¬ (s.argx.toNat < (width s b).toNat ∧ s.argy.toNat < (height s b).toNat)) :
    pixelAddress b s = .error .outOfBounds := if_neg (mt (inBounds_sint s b _ _).mp h)

theorem components_of_valid {s : State} (h0 : s.arg0.toNat < 256) (h1 : s.arg1.toNat < 256) (h2 : s.arg2.toNat < 256) :
    components s = .ok ⟨s.arg0.setWidth 8, s.arg1.setWidth 8, s.arg2.setWidth 8⟩ := by
  unfold components
  rw [channel_of_valid h0, channel_of_valid h1, channel_of_valid h2]
  rfl

theorem components_of_invalid {s : State} (h : ¬ (s.arg0.toNat < 256 ∧ s.arg1.toNat < 256 ∧ s.arg2.toNat < 256)) :
    components s = .error .invalidChannelValue := by
  unfold components
  by_cases h0 : s.arg0.toNat < 256
  · by_cases h1 : s.arg1.toNat < 256
    · rw [channel_of_valid h0, channel_of_valid h1, channel_of_invalid (fun h2 => h ⟨h0, h1, h2⟩)]
      rfl
    · rw [channel_of_valid h0, channel_of_invalid h1]
      rfl
  · rw [channel_of_invalid h0]
    rfl

theorem sameDimensions_of_eq {s : State} (hw : s.w0 = s.w1) (hh : s.h0 = s.h1) : sameDimensions s = .ok () :=
  if_neg (by simp [hw, hh])

theorem sameDimensions_of_ne {s : State} (h : ¬ (s.w0 = s.w1 ∧ s.h0 = s.h1)) :
    sameDimensions s = .error .dimensionMismatch := if_pos (by tauto)

end Sys2Proof.Machine
end

