-- ==== Sys2Proof/Laws/Exec.lean ====
section
/-! SUPPORT. What a command can do: it ends in exactly one of a few ways, and always in a next state. -/

namespace Sys2Proof.Machine

@[simp] theorem finish_ok (s t : State) : finish s (.ok t) = .next (complete t) := rfl

@[simp] theorem finish_error (s : State) (k : Kind) : finish s (.error k) = .next (raise k s) := rfl

/-- A command's run ends at its end or at its first `raise`. -/
theorem finish_cases {s t : State} {body : Except Kind State} (h : finish s body = .next t) :
    (∃ u, body = .ok u ∧ t = complete u) ∨ ∃ k, body = .error k ∧ t = raise k s := by
  cases body with
  | ok u => exact .inl ⟨u, rfl, by cases h; rfl⟩
  | error k => exact .inr ⟨k, rfl, by cases h; rfl⟩

/-- What the pseudocode of a command computes: the state at its end, or the kind it raises. -/
def execBody (i : Instr) (s : State) : Except Kind State :=
  match i with
  | .tobits => (channel s.arg0).map fun n => writeBits (toBits n) s
  | .frombits => .ok (writeRes0 (fromBits s.bits) s)
  | .last3 => (channel s.arg0).map fun n => writeRes0 (last3BitsValue n) s
  | .top3 => (channel s.arg0).map fun n => writeRes0 (top3Bits n) s
  | .expand3 => ((channel s.arg0).bind threeBits).map fun v => writeRes0 (expandTop3 v) s
  | .merge => (channel s.arg0).bind fun c => (channel s.arg1).map fun h => writeRes0 (mergeChannel c h) s
  | .revealch => (channel s.arg0).map fun n => writeRes0 (revealChannel n) s
  | .embed => (sameDimensions s).map fun _ =>
      writeImage .img0 (embedImage (imageOf s .img0) (imageOf s .img1)) s
  | .reveal b => .ok (writeImage b (revealImage (imageOf s b)) s)
  | .getpixel b => (pixelAddress b s).map fun a => writeRes (readPixel s b a.1 a.2) s
  | .setpixel b => (pixelAddress b s).bind fun a => (components s).map fun p => writePixel b a.1 a.2 p s

/-- Every command is the run of its pseudocode. -/
theorem exec_eq_finish (i : Instr) (s : State) : exec i s = finish s (execBody i s) := by
  cases i with
  | tobits => simp only [exec, execTobits, execBody]; cases channel s.arg0 <;> rfl
  | frombits => rfl
  | last3 => simp only [exec, execLast3, execBody]; cases channel s.arg0 <;> rfl
  | top3 => simp only [exec, execTop3, execBody]; cases channel s.arg0 <;> rfl
  | expand3 =>
    simp only [exec, execExpand3, execBody]
    cases channel s.arg0 with
    | error k => rfl
    | ok n => simp only [Except.bind]; show finish s ((threeBits n).bind _) = _; cases threeBits n <;> rfl
  | merge =>
    simp only [exec, execMerge, execBody]
    cases channel s.arg0 <;> cases channel s.arg1 <;> rfl
  | revealch => simp only [exec, execRevealch, execBody]; cases channel s.arg0 <;> rfl
  | embed => simp only [exec, execEmbed, execBody]; cases sameDimensions s <;> rfl
  | reveal b => rfl
  | getpixel b => simp only [exec, execGetpixel, execBody]; cases pixelAddress b s <;> rfl
  | setpixel b =>
    simp only [exec, execSetpixel, execBody]
    cases pixelAddress b s <;> cases components s <;> rfl

/-- A command always answers a next state: it never faults and is never refused. -/
theorem exec_isNext (i : Instr) (s : State) : ∃ t, exec i s = .next t := by
  rw [exec_eq_finish]
  cases execBody i s with
  | ok u => exact ⟨_, rfl⟩
  | error k => exact ⟨_, rfl⟩

/-- What a command whose pseudocode reaches its end has written. -/
inductive Wrote (s : State) : State → Prop where
  | bits (v : BitSeq) : Wrote s (writeBits v s)
  | res0 {n : Nat} (v : BitVec n) (hn : n ≤ 8) : Wrote s (writeRes0 v s)
  | res (p : Pixel) : Wrote s (writeRes p s)
  | pixel (b : Buf) (x y : Coord) (p : Pixel) : Wrote s (writePixel b x y p s)
  | image (b : Buf) (f : Image) : Wrote s (writeImage b f s)

/-- The pseudocode of a command writes one of BITS, RES0, the three result registers, a pixel or an image, or it raises a
kind other than IllegalCommand. -/
theorem execBody_cases (i : Instr) (s : State) :
    (∃ u, execBody i s = .ok u ∧ Wrote s u) ∨ ∃ k, execBody i s = .error k ∧ k ≠ .illegalCommand := by
  have hch (w : Word) : (∃ n, channel w = .ok n) ∨ channel w = .error .invalidChannelValue := by
    cases h : channel w with
    | ok n => exact .inl ⟨n, rfl⟩
    | error k => exact .inr (by rw [(channel_eq_error h).2])
  have hpa (b : Buf) : (∃ a, pixelAddress b s = .ok a) ∨ pixelAddress b s = .error .outOfBounds := by
    unfold pixelAddress
    split
    · exact .inl ⟨_, rfl⟩
    · exact .inr rfl
  cases i with
  | tobits =>
    rcases hch s.arg0 with ⟨n, h⟩ | h
    · exact .inl ⟨_, by rw [execBody, h]; rfl, .bits _⟩
    · exact .inr ⟨_, by rw [execBody, h]; rfl, by decide⟩
  | frombits => exact .inl ⟨_, rfl, .res0 _ (by decide)⟩
  | last3 =>
    rcases hch s.arg0 with ⟨n, h⟩ | h
    · exact .inl ⟨_, by rw [execBody, h]; rfl, .res0 _ (by decide)⟩
    · exact .inr ⟨_, by rw [execBody, h]; rfl, by decide⟩
  | top3 =>
    rcases hch s.arg0 with ⟨n, h⟩ | h
    · exact .inl ⟨_, by rw [execBody, h]; rfl, .res0 _ (by decide)⟩
    · exact .inr ⟨_, by rw [execBody, h]; rfl, by decide⟩
  | expand3 =>
    rcases hch s.arg0 with ⟨n, h⟩ | h
    · rcases Nat.lt_or_ge 7 n.toNat with h7 | h7
      · exact .inr ⟨_, by rw [execBody, h]; simp only [Except.bind, threeBits_of_gt h7]; rfl, by decide⟩
      · exact .inl ⟨_, by rw [execBody, h]; simp only [Except.bind, threeBits_of_le h7]; rfl, .res0 _ (by decide)⟩
    · exact .inr ⟨_, by rw [execBody, h]; rfl, by decide⟩
  | merge =>
    rcases hch s.arg0 with ⟨c, h⟩ | h
    · rcases hch s.arg1 with ⟨d, h'⟩ | h'
      · exact .inl ⟨_, by rw [execBody, h, h']; rfl, .res0 _ (by decide)⟩
      · exact .inr ⟨_, by rw [execBody, h, h']; rfl, by decide⟩
    · exact .inr ⟨_, by rw [execBody, h]; rfl, by decide⟩
  | revealch =>
    rcases hch s.arg0 with ⟨n, h⟩ | h
    · exact .inl ⟨_, by rw [execBody, h]; rfl, .res0 _ (by decide)⟩
    · exact .inr ⟨_, by rw [execBody, h]; rfl, by decide⟩
  | embed =>
    by_cases hd : s.w0 = s.w1 ∧ s.h0 = s.h1
    · exact .inl ⟨_, by rw [execBody, sameDimensions_of_eq hd.1 hd.2]; rfl, .image _ _⟩
    · exact .inr ⟨_, by rw [execBody, sameDimensions_of_ne hd]; rfl, by decide⟩
  | reveal b => exact .inl ⟨_, rfl, .image _ _⟩
  | getpixel b =>
    rcases hpa b with ⟨a, h⟩ | h
    · exact .inl ⟨_, by rw [execBody, h]; rfl, .res _⟩
    · exact .inr ⟨_, by rw [execBody, h]; rfl, by decide⟩
  | setpixel b =>
    rcases hpa b with ⟨a, h⟩ | h
    · by_cases hc : s.arg0.toNat < 256 ∧ s.arg1.toNat < 256 ∧ s.arg2.toNat < 256
      · exact .inl ⟨_, by rw [execBody, h, components_of_valid hc.1 hc.2.1 hc.2.2]; rfl, .pixel _ _ _ _⟩
      · exact .inr ⟨_, by rw [execBody, h, components_of_invalid hc]; rfl, by decide⟩
    · exact .inr ⟨_, by rw [execBody, h]; rfl, by decide⟩

/-- Everything a command can do: it writes one thing and completes, or it takes an exception and has no other effect. -/
theorem exec_cases {i : Instr} {s t : State} (h : exec i s = .next t) :
    (∃ u, Wrote s u ∧ t = complete u) ∨ ∃ k, k ≠ .illegalCommand ∧ t = raise k s := by
  rw [exec_eq_finish] at h
  rcases execBody_cases i s with ⟨u, hu, hw⟩ | ⟨k, hk, hne⟩
  · rw [hu] at h
    cases h
    exact .inl ⟨u, hw, rfl⟩
  · rw [hk] at h
    cases h
    exact .inr ⟨k, hne, rfl⟩

end Sys2Proof.Machine
end

