-- ==== Sys2Proof/Laws/HostPort.lean ====
section
/-! SUPPORT. What HOST's operations and a step can do. -/

namespace Sys2Proof.Machine

/-- The offsets that name a register are those of a well-formed access. -/
theorem regAt_isSome_iff (off : Nat) : (regAt off).isSome = true ↔ off % 4 = 0 ∧ off ≤ 0x3C := by
  constructor
  · intro h
    unfold regAt at h
    split at h <;> first | omega | cases h
  · rintro ⟨h4, h⟩
    obtain ⟨k, rfl⟩ : ∃ k, off = 4 * k := ⟨off / 4, by omega⟩
    have hk : k < 16 := by omega
    clear h h4
    revert hk
    revert k
    decide

/-- An access names a register exactly when it is well formed (R47). -/
theorem access_eq_ok {off width : Nat} {r : Reg} (h : access off width = .ok r) :
    regAt off = some r ∧ width = 32 := by
  unfold access at h
  split at h
  · cases h
  · rename_i r' hr
    split at h
    · rename_i hw
      cases h
      exact ⟨hr, hw⟩
    · cases h

theorem access_isOk_iff (off width : Nat) : (∃ r, access off width = .ok r) ↔ accessWellFormed off width = true := by
  constructor
  · rintro ⟨r, h⟩
    obtain ⟨hr, rfl⟩ := access_eq_ok h
    have := (regAt_isSome_iff off).mp (by rw [hr]; rfl)
    simp [accessWellFormed, this]
  · intro h
    simp only [accessWellFormed, Bool.and_eq_true, beq_iff_eq, decide_eq_true_eq] at h
    obtain ⟨⟨h4, hle⟩, rfl⟩ := h
    obtain ⟨r, hr⟩ := Option.isSome_iff_exists.mp ((regAt_isSome_iff off).mpr ⟨h4, hle⟩)
    exact ⟨r, by simp [access, hr]⟩

/-- The offset of a register names it, and each register has one offset. -/
theorem regAt_eq_some_iff (off : Nat) (r : Reg) : regAt off = some r ↔ off = regOffset r := by
  constructor
  · intro h
    unfold regAt at h
    split at h <;> cases h <;> rfl
  · rintro rfl
    cases r <;> rfl

@[simp] theorem access_regOffset (r : Reg) : access (regOffset r) 32 = .ok r := by cases r <;> rfl

/-- A command issue runs a command or raises IllegalCommand (R158). -/
theorem issue_cases (w : Word) (s : State) :
    (∃ i, decode w = .ok i ∧ issue w s = exec i s) ∨
      ∃ e, decode w = .error e ∧ issue w s = .next (raise .illegalCommand s) := by
  unfold issue
  cases h : decode w with
  | ok i => exact .inl ⟨i, rfl, rfl⟩
  | error e => exact .inr ⟨e, rfl, rfl⟩

theorem issue_isNext (w : Word) (s : State) : ∃ t, issue w s = .next t := by
  rcases issue_cases w s with ⟨i, -, h⟩ | ⟨e, -, h⟩
  · rw [h]
    exact exec_isNext i s
  · exact ⟨_, h⟩

theorem hostWrite_isNext (r : Reg) (w : Word) (s : State) : ∃ t, hostWrite r w s = .next t := by
  cases r with
  | cmd => exact issue_isNext w s
  | _ => exact ⟨_, rfl⟩

/-- A step with an operation pending performs it. -/
theorem step_cons {s : State} {op : HostOp} {rest : List HostOp} (h : s.pending = op :: rest) :
    step s = hostOp op { s with pending := rest } := by
  unfold step
  rw [h]

theorem step_nil {s : State} (h : s.pending = []) : step s = .next s := by
  unfold step
  rw [h]

@[simp] theorem hostOp_issueOp (w : Word) (s : State) : hostOp (issueOp w) s = issue w s := rfl

end Sys2Proof.Machine
end

