-- ==== Sys2Proof/Laws/PerInstr.lean ====
section
/-! SUPPORT. Laws of the encoding, stated and proved command by command. -/

/-- The word of a command has ZERO = 0 (R71) and is the row's match under the row's mask (R74). -/
def Sys2Proof.Laws.ZeroField.Statement (i : Sys2Proof.Instr) : Prop :=
  i.wellFormed = true → (Sys2Proof.encode i).toNat / 512 = 0 ∧
    Sys2Proof.encode i &&& Sys2Proof.rowMask i = Sys2Proof.rowMatch i

namespace Sys2Proof.Laws.ZeroField

theorem tobits : Statement .tobits := fun _ => by decide
theorem frombits : Statement .frombits := fun _ => by decide
theorem last3 : Statement .last3 := fun _ => by decide
theorem top3 : Statement .top3 := fun _ => by decide
theorem expand3 : Statement .expand3 := fun _ => by decide
theorem merge : Statement .merge := fun _ => by decide
theorem revealch : Statement .revealch := fun _ => by decide
theorem embed : Statement .embed := fun _ => by decide
theorem reveal (b : Buf) : Statement (.reveal b) := fun _ => by cases b <;> decide
theorem getpixel (b : Buf) : Statement (.getpixel b) := fun _ => by cases b <;> decide
theorem setpixel (b : Buf) : Statement (.setpixel b) := fun _ => by cases b <;> decide

end Sys2Proof.Laws.ZeroField
end

