-- ==== Sys2Proof/Tests/Slice0.lean ====
section
/-! SUPPORT. Tests of the model, and for each statement with hypotheses a concrete state that meets them. The expected values
are those of the spec: its test vectors V1 to V8, its examples and its tables. -/

namespace Sys2Proof.Tests

open Sys2Proof Sys2Proof.Machine

/-- The next state, where there is one. -/
def nextOf (o : Host.Outcome State Fault Refusal) : Option State :=
  match o with
  | .next s => some s
  | .fault _ => none
  | .refused _ => none

/-- The refusal, where there is one. -/
def refusalOf (o : Host.Outcome State Fault Refusal) : Option Refusal :=
  match o with
  | .next _ => none
  | .fault _ => none
  | .refused r => some r

/-- The illegal word's reason, where there is one. -/
def errorOf (d : Except IllegalWord Instr) : Option IllegalWord :=
  match d with
  | .ok _ => none
  | .error e => some e

/-- The command, where there is one. -/
def commandOf (d : Except IllegalWord Instr) : Option Instr := d.toOption

/-- The reset state with three channel operands. -/
def argState (a0 a1 a2 : Word) : State := { State.reset with arg0 := a0, arg1 := a1, arg2 := a2 }

/-- Two 1 by 1 images, those of V6. -/
def oneByOne : State :=
  writePixel .img1 0 0 ⟨176, 0, 255⟩
    (writePixel .img0 0 0 ⟨214, 255, 0⟩ { State.reset with w0 := 1, h0 := 1, w1 := 1, h1 := 1 })

/-- IMG0 is 2 by 1 with the pixels of R140's example at (1,0) and V5's at (0,0), IMG1 is 0 by 0, and the coordinate operands
are (x, y). -/
def pixelState (x y : Word) : State :=
  writePixel .img0 1 0 ⟨7, 8, 100⟩
    (writePixel .img0 0 0 ⟨10, 20, 30⟩ { State.reset with w0 := 2, h0 := 1, argx := x, argy := y })

/-- Every register with a value of its own. -/
def fullState : State :=
  { State.reset with
    status := ⟨3, true⟩, arg0 := 2, arg1 := 3, arg2 := 4, argx := 5, argy := 6, res0 := 7, res1 := 8, res2 := 9
    bits := #v[1, 1, 0, 1, 0, 1, 0, 1], w0 := 12, h0 := 13, w1 := 14, h1 := 0x7FFFFFFF }

/-! Constants (R9, R10). -/

theorem test_config : Config.keep + Config.payload = Config.chw ∧ Config.nch = 3 ∧ Config.offset = 16 ∧ Config.xlen = 32 ∧
    Config.nreg = 16 ∧ Config.nbuf = 2 ∧ Config.dimw = 31 := by decide

/-! Well-formedness: each check refuses an ill-formed term (R47). -/

theorem test_illformed_offset_unaligned : (HostOp.read 0x02 32).wellFormed = false := by decide
theorem test_illformed_offset_above : (HostOp.write 0x40 32 0).wellFormed = false := by decide
theorem test_illformed_width : (HostOp.write 0x08 8 0).wellFormed = false := by decide
theorem test_wellformed_bounds : hostOpsWellFormed [.read 0x00 32, .write 0x3C 32 0, .reset] = true := by decide
theorem test_commands_wellformed : (Instr.embed.wellFormed && (Instr.setpixel .img1).wellFormed) = true := by decide

/-! Decoding: every constructor's word, written out from the fields ZERO, BUF, OPC of R71 and the opcode map of R74. -/

theorem test_decode_tobits : commandOf (decode 0b00000000000000000000000000000001) = some .tobits := by decide
theorem test_decode_frombits : commandOf (decode 0b00000000000000000000000000000010) = some .frombits := by decide
theorem test_decode_last3 : commandOf (decode 0b00000000000000000000000000000011) = some .last3 := by decide
theorem test_decode_top3 : commandOf (decode 0b00000000000000000000000000000100) = some .top3 := by decide
theorem test_decode_expand3 : commandOf (decode 0b00000000000000000000000000000101) = some .expand3 := by decide
theorem test_decode_merge : commandOf (decode 0b00000000000000000000000000000110) = some .merge := by decide
theorem test_decode_revealch : commandOf (decode 0b00000000000000000000000000000111) = some .revealch := by decide
theorem test_decode_embed : commandOf (decode 0b00000000000000000000000000010000) = some .embed := by decide
theorem test_decode_reveal :
    commandOf (decode 0b00000000000000000000000000010001) = some (.reveal .img0) ∧
    commandOf (decode 0b00000000000000000000000100010001) = some (.reveal .img1) := by decide
theorem test_decode_getpixel :
    commandOf (decode 0b00000000000000000000000000100000) = some (.getpixel .img0) ∧
    commandOf (decode 0b00000000000000000000000100100000) = some (.getpixel .img1) := by decide
theorem test_decode_setpixel :
    commandOf (decode 0b00000000000000000000000000100001) = some (.setpixel .img0) ∧
    commandOf (decode 0b00000000000000000000000100100001) = some (.setpixel .img1) := by decide

/-- V7: the illegal words, with the reason of R76. -/
theorem test_decode_illegal :
    ([0x00000000, 0x00000008, 0x00000012, 0x000000FF, 0x00000101, 0x00000110, 0x00000211, 0x80000020, 0xFFFFFFFF] : List Word).map
      (fun w => errorOf (decode w)) =
    [some .opcode, some .opcode, some .opcode, some .opcode, some .buffer, some .buffer, some .zeroField, some .zeroField,
      some .zeroField] := by decide

theorem test_encode_words :
    ([.reveal .img1, .getpixel .img0, .setpixel .img1, .embed] : List Instr).map encode =
      [0x00000111, 0x00000020, 0x00000121, 0x00000010] := by decide

theorem test_decodeTableWord :
    decodeTableWord 32 0x00000121 = some (.setpixel .img1) ∧ decodeTableWord 8 0x10 = some .embed ∧
    decodeTableWord 32 0x00000211 = none ∧ decodeTableWord 40 0x100000010 = none := by decide

theorem test_withFetchWord :
    (nextOf (step (State.reset.withFetchWord 32 0x00000120))).map (·.status) = some ⟨1, true⟩ ∧
    (nextOf (step (State.reset.withFetchWord 32 0x00000110))).map (·.status) = some ⟨4, true⟩ := by decide

/-! The commands: at most two tests each, one step. -/

/-- V1. -/
theorem test_tobits : (nextOf (exec .tobits (argState 214 0 0))).map (·.bits) = some #v[1, 1, 0, 1, 0, 1, 1, 0] := by decide
/-- V1. -/
theorem test_tobits_minus_one :
    (nextOf (exec .tobits { fullState with arg0 := 0xFFFFFFFF })).map (fun t => (t.bits, t.status)) =
      some (#v[1, 1, 0, 1, 0, 1, 0, 1], ⟨2, true⟩) := by decide
/-- R98's example. -/
theorem test_frombits : (nextOf (exec .frombits fullState)).map (fun t => (t.res0, t.status)) = some (213, ⟨0, true⟩) := by
  decide
/-- V2. -/
theorem test_last3 : (nextOf (exec .last3 (argState 213 0 0))).map (·.res0) = some 5 := by decide
/-- V2. -/
theorem test_last3_256 : (nextOf (exec .last3 (argState 256 0 0))).map (·.status) = some ⟨2, true⟩ := by decide
/-- V2. -/
theorem test_top3 : (nextOf (exec .top3 (argState 176 0 0))).map (·.res0) = some 5 := by decide
/-- V2. -/
theorem test_top3_255 : (nextOf (exec .top3 (argState 255 0 0))).map (·.res0) = some 7 := by decide
/-- V3. -/
theorem test_expand3 :
    ([0, 1, 2, 3, 4, 5, 6, 7] : List Word).map (fun v => (nextOf (exec .expand3 (argState v 0 0))).map (·.res0)) =
      [some 16, some 48, some 80, some 112, some 144, some 176, some 208, some 240] := by decide
/-- V3. -/
theorem test_expand3_errors :
    ([8, 255, 256, 0xFFFFFFFF] : List Word).map (fun v => (nextOf (exec .expand3 (argState v 0 0))).map (·.status)) =
      [some ⟨5, true⟩, some ⟨5, true⟩, some ⟨2, true⟩, some ⟨2, true⟩] := by decide
/-- V4. -/
theorem test_merge :
    ([(214, 176), (255, 0), (0, 255), (7, 31), (8, 32), (100, 200), (170, 85)] : List (Word × Word)).map
      (fun p => (nextOf (exec .merge (argState p.1 p.2 0))).map (·.res0)) =
    [some 213, some 248, some 7, some 0, some 9, some 102, some 170] := by decide
/-- V4. -/
theorem test_merge_hidden_256 : (nextOf (exec .merge (argState 0 256 0))).map (·.status) = some ⟨2, true⟩ := by decide
/-- V2. -/
theorem test_revealch :
    ([0, 7, 8, 170, 213, 214] : List Word).map (fun n => (nextOf (exec .revealch (argState n 0 0))).map (·.res0)) =
      [some 16, some 240, some 16, some 80, some 176, some 208] := by decide
/-- V2. -/
theorem test_revealch_256 : (nextOf (exec .revealch (argState 256 0 0))).map (·.status) = some ⟨2, true⟩ := by decide
/-- V6: the first row. -/
theorem test_embed :
    (nextOf (exec .embed oneByOne)).map (fun t => (readPixel t .img0 0 0, readPixel t .img1 0 0, t.status)) =
      some (⟨213, 248, 7⟩, ⟨176, 0, 255⟩, ⟨0, false⟩) := by decide
/-- V6: same pixel count, different shape. -/
theorem test_embed_mismatch :
    (nextOf (exec .embed { State.reset with w0 := 1, h0 := 2, w1 := 2, h1 := 1 })).map (·.status) = some ⟨3, true⟩ := by decide
/-- R128's example. -/
theorem test_reveal :
    (nextOf (exec (.reveal .img0) (writePixel .img0 0 0 ⟨213, 248, 7⟩ oneByOne))).map
      (fun t => (readPixel t .img0 0 0, readPixel t .img1 0 0)) = some (⟨176, 16, 240⟩, ⟨176, 0, 255⟩) := by decide
/-- V6. -/
theorem test_reveal_img1 :
    (nextOf (exec (.reveal .img1) oneByOne)).map (fun t => (readPixel t .img0 0 0, readPixel t .img1 0 0)) =
      some (⟨214, 255, 0⟩, ⟨16, 16, 240⟩) := by decide
/-- R140's example. -/
theorem test_getpixel :
    (nextOf (exec (.getpixel .img0) (pixelState 1 0))).map (fun t => (t.res0, t.res1, t.res2, t.status)) =
      some (7, 8, 100, ⟨0, false⟩) := by decide
/-- V5: x = W0, y = H0, x = -1. -/
theorem test_getpixel_bounds :
    ([(2, 0), (0, 1), (0xFFFFFFFF, 0)] : List (Word × Word)).map
      (fun p => (nextOf (exec (.getpixel .img0) (pixelState p.1 p.2))).map (·.status)) =
    [some ⟨1, true⟩, some ⟨1, true⟩, some ⟨1, true⟩] := by decide
/-- V5: the last column with the extreme valid components, and the pixel beside it. -/
theorem test_setpixel :
    (nextOf (exec (.setpixel .img0) { pixelState 1 0 with arg1 := 255 })).map
      (fun t => (readPixel t .img0 1 0, readPixel t .img0 0 0, t.status)) = some (⟨0, 255, 0⟩, ⟨10, 20, 30⟩, ⟨0, false⟩) := by
  decide
/-- V5: an invalid last component leaves the pixel whole, and OutOfBounds wins over an invalid component. -/
theorem test_setpixel_errors :
    (nextOf (exec (.setpixel .img0) { pixelState 0 0 with arg0 := 1, arg1 := 2, arg2 := 0xFFFFFFFF })).map
      (fun t => (readPixel t .img0 0 0, t.status)) = some (⟨10, 20, 30⟩, ⟨2, true⟩) ∧
    (nextOf (exec (.setpixel .img0) { pixelState 2 0 with arg0 := 256 })).map (·.status) = some ⟨1, true⟩ := by decide

/-! HOST's operations. -/

/-- R21, R156: the word at each of the sixteen offsets. -/
theorem test_read_each_register :
    (List.range 16).map (fun k => (nextOf (step { fullState with pending := [.read (4 * k) 32] })).map (·.returned)) =
      ([0, 0x103, 2, 3, 4, 5, 6, 7, 8, 9, 0xD5, 0, 12, 13, 14, 0x7FFFFFFF] : List Word).map (fun v => some [v]) := by decide

/-- V8, R155: the word read back from each register but CMD after a write of 0xFFFFFFFF: the ignored writes leave the register
alone, BITS keeps 8 bits and the dimension registers 31. -/
theorem test_write_each_register :
    ([.status, .arg0, .arg1, .arg2, .argx, .argy, .res0, .res1, .res2, .bits, .reserved, .w0, .h0, .w1, .h1] : List Reg).map
      (fun r => (nextOf (step { fullState with pending := [wr r (-1)] })).map (readReg r)) =
    ([0x103, 0xFFFFFFFF, 0xFFFFFFFF, 0xFFFFFFFF, 0xFFFFFFFF, 0xFFFFFFFF, 7, 8, 9, 0xFF, 0, 0x7FFFFFFF, 0x7FFFFFFF,
      0x7FFFFFFF, 0x7FFFFFFF] : List Word).map some := by decide

/-- R30, V1: bits 31:8 of a word written to BITS are ignored. -/
theorem test_write_bits :
    (nextOf (step { State.reset with pending := [.write 0x28 32 0x1D5] })).map (·.bits) = some #v[1, 1, 0, 1, 0, 1, 0, 1] := by
  decide

/-- R53: a dimension write of the value already there redraws its own buffer and not the other. -/
theorem test_write_dimension_redraws :
    (nextOf (step { oneByOne with pending := [.write 0x30 32 1] })).map (fun t => (t.img0, t.img1, t.redraws)) =
      some (⟨.redraw 0, []⟩, oneByOne.img1, 1) := by decide

/-- R200, R202. -/
theorem test_reset :
    (nextOf (step { fullState with pending := [.reset], img0 := oneByOne.img0 })) =
      some { State.reset with img0 := oneByOne.img0 } := by decide

/-- R47: a refusal for each kind of foreign access. -/
theorem test_foreign_accesses :
    ([.read 0x40 32, .write 0x02 32 0, .read 0x08 8, .write 0x00 16 1] : List HostOp).map
      (fun op => refusalOf (step { State.reset with pending := [op] })) =
    [some (.noSuchRegister 0x40), some (.noSuchRegister 0x02), some (.notAWord 8), some (.notAWord 16)] := by decide

/-- R79: the expansion of a pseudo-instruction, with the bus writes of P1 and P2. -/
theorem test_script :
    psMerge 214 176 = [.write 0x08 32 0xD6, .write 0x0C 32 0xB0, .write 0x00 32 0x06] ∧
    psDims .img1 2 1 = [.write 0x38 32 2, .write 0x3C 32 1] ∧ wr .argx (-1) = .write 0x14 32 0xFFFFFFFF := by decide

/-- The canonical form of a buffer's bytes, and one cell out of order or out of range. -/
theorem test_memory_form :
    oneByOne.img0.cells.wf ∧ ¬ Memory.wf [(3, 0), (2, 0)] ∧ ¬ Memory.wf [(cellSpace, 0)] := by decide

/-! Witnesses: for each statement with hypotheses, values that meet them, each clause at the ends of its range. -/

theorem witness_DecodesExactlyItsOwnWord :
    (Instr.setpixel .img1).wellFormed = true ∧ decode 0x00000121 = .ok (.setpixel .img1) := ⟨by decide, rfl⟩

theorem witness_IllegalWordsRaiseIllegalCommand :
    decode 0x00000200 = .error .zeroField ∧ decode 0x00000000 = .error .opcode ∧ decode 0x00000107 = .error .buffer :=
  ⟨rfl, rfl, rfl⟩

theorem witness_StepRunsTheDecodedCommand :
    ({ State.reset with pending := [.write 0x00 32 0x10] } : State).pending = .write 0x00 32 0x10 :: [] ∧
    decode 0x00000010 = .ok .embed := ⟨rfl, rfl⟩

theorem witness_NoPendingOperationChangesNothing : State.reset.pending = [] := rfl

/-- Both sides of the equivalence, at the ends of the range of offsets. -/
theorem witness_OnlyForeignAccessesAreRefused :
    step { State.reset with pending := [.read 0x40 32] } = .refused (.noSuchRegister 0x40) ∧
    step { State.reset with pending := [.write 0x3C 31 0] } = .refused (.notAWord 31) ∧
    ¬ ((0x40 : Nat) % 4 = 0 ∧ 0x40 ≤ 0x3C ∧ 32 = 32) ∧ ((0x3C : Nat) % 4 = 0 ∧ 0x3C ≤ 0x3C ∧ 32 = 32) :=
  ⟨rfl, rfl, by decide, by decide⟩

/-- The status word and the pair at the end of the map. Every pair is met by test_read_each_register's states. -/
theorem witness_HostReadReturnsTheRegister :
    (0x103 : Word) = BitVec.ofNat 32 (fullState.status.code.toNat + 256 * fullState.status.stk.toNat) ∧
    (0x7FFFFFFF : Word) = BitVec.ofNat 32 fullState.h1.toNat := by decide

/-- Accesses that the first clause takes, at the edge of its range, and the offsets of the others, which are the sixteen of the
map and pairwise different. -/
theorem witness_HostWriteHasItsEffect :
    ¬ ((0x3D : Nat) % 4 = 0 ∧ 0x3D ≤ 0x3C ∧ 32 = 32) ∧ ¬ ((0x3C : Nat) % 4 = 0 ∧ 0x3C ≤ 0x3C ∧ 64 = 32) ∧
    (List.range 16).map (fun k => 4 * k) =
      [0x00, 0x04, 0x08, 0x0C, 0x10, 0x14, 0x18, 0x1C, 0x20, 0x24, 0x28, 0x2C, 0x30, 0x34, 0x38, 0x3C] := by decide

/-- A state in which both buffers hold draws. -/
def redrawnState : State := { State.reset with redraws := 2, img0 := ⟨.redraw 1, []⟩, img1 := ⟨.redraw 0, []⟩ }

theorem witness_DimensionWriteRedrawsTheBuffer : DrawInv redrawnState ∧ Reg.h1 = heightReg .img1 := by
  refine ⟨⟨fun b n h => ?_, fun n h => ?_⟩, rfl⟩
  · cases b <;> cases h <;> decide
  · cases h; decide

theorem witness_WrittenRegisterReadsBack : Reg.h1 ≠ .cmd ∧ Reg.status ≠ .cmd := by decide

/-- The two ends of the channel range, and the operands just outside: the hypotheses of the statements of TOBITS, FROMBITS,
LAST3, TOP3 and REVEALCH. -/
theorem witness_TobitsDecomposes :
    HoldsChannel (argState 0 0 0).arg0 ∧ HoldsChannel (argState 255 0 0).arg0 ∧
    ¬ HoldsChannel (argState 256 0 0).arg0 ∧ ¬ HoldsChannel (argState 0xFFFFFFFF 0 0).arg0 := by decide

theorem witness_FrombitsRecomposes : HoldsChannel (argState 0 0 0).arg0 ∧ HoldsChannel (argState 255 0 0).arg0 := by decide
theorem witness_LastThreeIsTheRemainderByEight :
    HoldsChannel (argState 255 0 0).arg0 ∧ ¬ HoldsChannel (argState 0x80000000 0 0).arg0 := by decide
theorem witness_TopThreeIsTheQuotientByThirtyTwo :
    HoldsChannel (argState 255 0 0).arg0 ∧ ¬ HoldsChannel (argState 0x7FFFFFFF 0 0).arg0 := by decide
theorem witness_RevealchAmplifiesTheLowBits :
    HoldsChannel (argState 255 0 0).arg0 ∧ ¬ HoldsChannel (argState 256 0 0).arg0 := by decide

/-- The three clauses of EXPAND3 at the ends of their ranges. -/
theorem witness_ExpandThreeReexpands :
    (0 ≤ (argState 0 0 0).arg0.toInt ∧ (argState 0 0 0).arg0.toInt ≤ 7) ∧
    (0 ≤ (argState 7 0 0).arg0.toInt ∧ (argState 7 0 0).arg0.toInt ≤ 7) ∧
    (8 ≤ (argState 8 0 0).arg0.toInt ∧ (argState 8 0 0).arg0.toInt ≤ 255) ∧
    (8 ≤ (argState 255 0 0).arg0.toInt ∧ (argState 255 0 0).arg0.toInt ≤ 255) ∧
    ¬ HoldsChannel (argState 256 0 0).arg0 ∧ ¬ HoldsChannel (argState 0xFFFFFFFF 0 0).arg0 := by decide

theorem witness_MergeCombinesTwoChannels :
    (HoldsChannel (argState 255 0 0).arg0 ∧ HoldsChannel (argState 255 0 0).arg1) ∧
    ¬ (HoldsChannel (argState 0 256 0).arg0 ∧ HoldsChannel (argState 0 256 0).arg1) ∧
    ¬ (HoldsChannel (argState 0xFFFFFFFF 0 0).arg0 ∧ HoldsChannel (argState 0xFFFFFFFF 0 0).arg1) := by decide

/-- Equal dimensions with a pixel in the image and one outside, unequal widths and unequal heights. -/
theorem witness_EmbedMergesTheWholeImage :
    (oneByOne.w0 = oneByOne.w1 ∧ oneByOne.h0 = oneByOne.h1) ∧ InImage oneByOne .img0 0 0 ∧ ¬ InImage oneByOne .img0 1 0 ∧
    ¬ ({ oneByOne with w0 := 2 }.w0 = oneByOne.w1 ∧ oneByOne.h0 = oneByOne.h1) ∧
    ¬ (oneByOne.w0 = oneByOne.w1 ∧ oneByOne.h0 = { oneByOne with h1 := 2 }.h1) := by decide

theorem witness_RevealReplacesTheWholeImage :
    InImage oneByOne .img1 0 0 ∧ ¬ InImage oneByOne .img1 0 1 ∧ Buf.img0 ≠ .img1 := by decide

/-- The last pixel of an image, and coordinates out of bounds: x = W, y = H, x = -1, and an image of no pixels. -/
theorem witness_GetpixelReadsThePixel :
    (ArgsName (pixelState 1 0) 1 0 ∧ InImage (pixelState 1 0) .img0 1 0) ∧ ArgsInBounds (pixelState 1 0) .img0 ∧
    ¬ ArgsInBounds (pixelState 2 0) .img0 ∧ ¬ ArgsInBounds (pixelState 0 1) .img0 ∧
    ¬ ArgsInBounds (pixelState 0xFFFFFFFF 0) .img0 ∧ ¬ ArgsInBounds (pixelState 0 0) .img1 := by decide

/-- As for GETPIXEL, with components at the ends of their range and just outside it. -/
theorem witness_SetpixelWritesOnePixel :
    (∀ s ∈ [{ pixelState 1 0 with arg0 := 0, arg1 := 255, arg2 := 255 }],
      ArgsName s 1 0 ∧ InImage s .img0 1 0 ∧ HoldsChannel s.arg0 ∧ HoldsChannel s.arg1 ∧ HoldsChannel s.arg2) ∧
    ¬ ArgsInBounds (pixelState 2 0) .img0 ∧
    (∀ s ∈ [{ pixelState 1 0 with arg0 := 256 }, { pixelState 1 0 with arg1 := 0xFFFFFFFF }, { pixelState 1 0 with arg2 := 256 }],
      ArgsInBounds s .img0 ∧ ¬ (HoldsChannel s.arg0 ∧ HoldsChannel s.arg1 ∧ HoldsChannel s.arg2)) := by decide

theorem witness_GetpixelAfterSetpixelReturnsTheComponents :
    ∀ s ∈ [{ pixelState 1 0 with arg0 := 255 }],
      ArgsInBounds s .img0 ∧ HoldsChannel s.arg0 ∧ HoldsChannel s.arg1 ∧ HoldsChannel s.arg2 := by decide

theorem witness_SetpixelOfTheHeldValueChangesNoByte :
    ∀ s ∈ [{ pixelState 1 0 with arg0 := 7, arg1 := 8, arg2 := 100 }],
      ArgsName s 1 0 ∧ InImage s .img0 1 0 ∧ s.arg0.toNat = (byteAt s .img0 1 0 .red).toNat ∧
      s.arg1.toNat = (byteAt s .img0 1 0 .green).toNat ∧ s.arg2.toNat = (byteAt s .img0 1 0 .blue).toNat := by decide

/-- A write that raises each of the five kinds, the channel operand at the edge of each of its three causes, and a write that
leaves CODE not 0. -/
theorem witness_FailingCommandChangesStatusAlone :
    Raises (pixelState 2 0) 0x20 .outOfBounds ∧
    Raises (argState 256 0 0) 0x05 .invalidChannelValue ∧ Raises (argState 0 256 0) 0x06 .invalidChannelValue ∧
    Raises { pixelState 1 0 with arg2 := 256 } 0x21 .invalidChannelValue ∧
    Raises { State.reset with w0 := 1 } 0x10 .dimensionMismatch ∧ Raises State.reset 0 .illegalCommand ∧
    Raises (argState 8 0 0) 0x05 .invalidOperand ∧ Raises (argState 255 0 0) 0x05 .invalidOperand ∧
    ∃ t, hostWrite .cmd 0x20 State.reset = .next t ∧ t.status.code ≠ 0 :=
  ⟨⟨.img0, .inl rfl, by decide⟩, .inl ⟨.expand3, rfl, by decide, by decide⟩, .inr (.inl ⟨rfl, by decide⟩),
    .inr (.inr ⟨.img0, rfl, by decide, by decide⟩), ⟨rfl, by decide⟩, ⟨.opcode, rfl⟩, ⟨rfl, by decide⟩, ⟨rfl, by decide⟩,
    _, rfl, by decide⟩

/-- Each of the codes 1, 2, 3, 5 and 0, and an illegal word. -/
theorem witness_EachKindHasExactlyItsCauses :
    decode 0 = .error .opcode ∧
    ([(.getpixel .img0, State.reset), (.merge, argState 0 256 0), (.embed, { State.reset with w0 := 1 }),
      (.expand3, argState 8 0 0), (.expand3, argState 7 0 0)] : List (Instr × State)).map
        (fun p => (nextOf (exec p.1 p.2)).map (·.status.code)) = [some 1, some 2, some 3, some 5, some 0] := ⟨rfl, by decide⟩

/-- A command, and an operation that is no reset with STK set. -/
theorem witness_StickyFlagIsClearedOnlyByReset :
    (∃ t, hostWrite .cmd 0x20 fullState = .next t) ∧ (∃ t, hostOp (.write 0x00 32 0x02) fullState = .next t) ∧
    HostOp.write 0x00 32 0x02 ≠ .reset ∧ fullState.status.stk = true := ⟨⟨_, rfl⟩, ⟨_, rfl⟩, by decide, rfl⟩

theorem witness_OutcomeIgnoresStatusAndResults : ∃ t, exec .last3 (argState 213 0 0) = .next t := ⟨_, rfl⟩

/-- A change of BITS, one of RES0 by a scalar command, and one of all three results by GETPIXEL. -/
theorem witness_OnlyTheNamedCommandsWriteResults :
    (∃ t, exec .tobits (argState 214 0 0) = .next t ∧ t.bits ≠ (argState 214 0 0).bits) ∧
    (∃ t, exec .last3 (argState 213 0 0) = .next t ∧ t.res0 ≠ (argState 213 0 0).res0) ∧
    (∃ t, exec (.getpixel .img0) (pixelState 1 0) = .next t ∧ t.res0 ≠ (pixelState 1 0).res0 ∧
      t.res1 ≠ (pixelState 1 0).res1 ∧ t.res2 ≠ (pixelState 1 0).res2) :=
  ⟨⟨_, rfl, by decide⟩, ⟨_, rfl, by decide⟩, ⟨_, rfl, by decide, by decide, by decide⟩⟩

/-- A byte that SETPIXEL, EMBED and REVEAL change. -/
theorem witness_OnlyTheNamedCommandsChangePixels :
    (∃ t, exec (.setpixel .img0) (pixelState 1 0) = .next t ∧ byteAt t .img0 1 0 .red ≠ byteAt (pixelState 1 0) .img0 1 0 .red) ∧
    (∃ t, exec .embed oneByOne = .next t ∧ byteAt t .img0 0 0 .red ≠ byteAt oneByOne .img0 0 0 .red) ∧
    (∃ t, exec (.reveal .img1) oneByOne = .next t ∧ byteAt t .img1 0 0 .red ≠ byteAt oneByOne .img1 0 0 .red) :=
  ⟨⟨_, rfl, by decide⟩, ⟨_, rfl, by decide⟩, ⟨_, rfl, by decide⟩⟩

/-- The bounds of R114 (c) and (g): a hidden value of 31 and two covers and two hidden values that agree in their kept bits. -/
theorem witness_EmbeddingKeepsTheCoverAndCarriesThePayload :
    (31 : Byte).toNat < 32 ∧ (248 : Byte).toNat / 8 = (255 : Byte).toNat / 8 ∧ (224 : Byte).toNat / 32 = (255 : Byte).toNat / 32 := by
  decide

theorem witness_RevealAfterEmbedShowsTheHiddenImage :
    (oneByOne.w0 = oneByOne.w1 ∧ oneByOne.h0 = oneByOne.h1) ∧ InImage oneByOne .img0 0 0 := by decide
theorem witness_SecondEmbedChangesNoByte : oneByOne.w0 = oneByOne.w1 ∧ oneByOne.h0 = oneByOne.h1 := by decide
theorem witness_SecondRevealLeavesSixteen : InImage oneByOne .img1 0 0 := by decide

/-- A state that is not the reset state, with written bytes, a failed command behind it and a command to come. -/
def busyState : State :=
  { oneByOne with
    status := ⟨5, true⟩, res0 := 255, redraws := 4
    img0 := { oneByOne.img0 with fill := .redraw 3 }, img1 := { oneByOne.img1 with fill := .redraw 2 }
    pending := [issueOp 0x11, .reset] }

theorem witness_StepKeepsTheInvariant : Inv busyState ∧ ∃ t, step busyState = .next t := by
  refine ⟨⟨⟨by decide, by decide⟩, ⟨by decide, by decide, by decide⟩, ⟨by decide, by decide⟩, fun b n h => ?_, fun n h => ?_⟩,
    _, rfl⟩
  · cases b <;> cases h <;> decide
  · cases h; decide

theorem witness_WellFormedHostIsNeverStopped : hostOpsWellFormed busyState.pending = true := by decide
theorem witness_RunAppliesOperationsInOrder : hostOpsWellFormed [.write 0x00 32 0, .read 0x3C 32, .reset] = true := by decide

end Sys2Proof.Tests
end

namespace Sys2Proof.Machine

/-! What each operation of HOST does to STATUS. -/

/-- Code 0 is OK and no error kind's (R24). -/
theorem Kind.code_ne_zero (k : Kind) : k.code ≠ 0 := by cases k <;> decide

/-- The pseudocode of a command leaves STATUS to the command's end. -/
theorem Wrote.status_eq {s u : State} (h : Wrote s u) : u.status = s.status := by
  cases h with
  | bits v => exact writeBits_status v s
  | res0 v hn => exact writeRes0_status v s
  | res p => exact writeRes_status p s
  | pixel b x y p => exact writePixel_status b x y p s
  | image b f => exact writeImage_status b f s

/-- A command leaves code 0 and STK alone, or a kind's code with STK set (R17, R178). -/
theorem exec_status_cases {i : Instr} {s t : State} (h : exec i s = .next t) :
    t.status = ⟨0, s.status.stk⟩ ∨ ∃ k : Kind, t.status = ⟨k.code, true⟩ := by
  rcases exec_cases h with ⟨u, hw, rfl⟩ | ⟨k, -, rfl⟩
  · exact .inl (by rw [complete_status, hw.status_eq])
  · exact .inr ⟨k, raise_status k s⟩

/-- A command issue ends as a command does, since an illegal word takes an exception (R158, R174). -/
theorem issue_status_cases {w : Word} {s t : State} (h : issue w s = .next t) :
    t.status = ⟨0, s.status.stk⟩ ∨ ∃ k : Kind, t.status = ⟨k.code, true⟩ := by
  rcases issue_cases w s with ⟨i, -, hi⟩ | ⟨e, -, he⟩
  · exact exec_status_cases (hi ▸ h)
  · cases he.symm.trans h
    exact .inr ⟨.illegalCommand, raise_status _ s⟩

/-- After a command issue STK is as before when CODE is 0, else set (R25). -/
theorem issue_stk {w : Word} {s t : State} (h : issue w s = .next t) :
    t.status.stk = if t.status.code = 0 then s.status.stk else true := by
  rcases issue_status_cases h with ht | ⟨k, ht⟩ <;> rw [ht]
  · exact (if_pos rfl).symm
  · exact (if_neg k.code_ne_zero).symm

/-- A register write that is no command issue leaves STATUS alone: STATUS itself is read-only (R23, R155). -/
theorem hostWrite_status {r : Reg} {w : Word} {s t : State} (hr : r ≠ .cmd) (h : hostWrite r w s = .next t) :
    t.status = s.status := by
  cases r with
  | cmd => exact absurd rfl hr
  | bits | w0 | h0 | w1 | h1 => cases h; simp
  | _ => cases h; rfl

/-- No register write clears STK (R25). -/
theorem hostWrite_stk_of_set {r : Reg} {w : Word} {s t : State} (h : hostWrite r w s = .next t)
    (hs : s.status.stk = true) : t.status.stk = true := by
  by_cases hr : r = .cmd
  · subst hr
    simp [issue_stk h, hs]
  · rw [hostWrite_status hr h, hs]

/-- A read that answers a next state is the read of a register. -/
theorem hostOp_read_cases {off width : Nat} {s t : State} (h : hostOp (.read off width) s = .next t) :
    ∃ r, access off width = .ok r ∧ t = hostRead r s := by
  simp only [hostOp] at h
  cases ha : access off width with
  | ok r =>
    rw [ha] at h
    cases h
    exact ⟨r, rfl, rfl⟩
  | error e =>
    rw [ha] at h
    cases h

/-- A write that answers a next state is the write of a register. -/
theorem hostOp_write_cases {off width : Nat} {w : Word} {s t : State} (h : hostOp (.write off width w) s = .next t) :
    ∃ r, access off width = .ok r ∧ hostWrite r w s = .next t := by
  simp only [hostOp] at h
  cases ha : access off width with
  | ok r =>
    rw [ha] at h
    exact ⟨r, rfl, h⟩
  | error e =>
    rw [ha] at h
    cases h

/-- No operation of HOST but reset clears STK (R25). -/
theorem hostOp_stk_of_set {op : HostOp} {s t : State} (h : hostOp op s = .next t) (hop : op ≠ .reset)
    (hs : s.status.stk = true) : t.status.stk = true := by
  cases op with
  | read off width =>
    obtain ⟨r, -, rfl⟩ := hostOp_read_cases h
    rw [hostRead_status, hs]
  | write off width w =>
    obtain ⟨r, -, hw⟩ := hostOp_write_cases h
    exact hostWrite_stk_of_set hw hs
  | reset => exact absurd rfl hop

/-- Settles O30: a command issue ends in one of the two STATUS words of R17 and R178, every other write and every read leaves
STATUS alone, and reset writes it. -/
theorem stickyFlagIsClearedOnlyByReset : Obligations.StickyFlagIsClearedOnlyByReset :=
  ⟨fun _ _ _ h => issue_stk h, fun _ _ _ h hop hs => hostOp_stk_of_set h hop hs, fun s => ⟨hostReset s, rfl, rfl⟩⟩

end Sys2Proof.Machine

namespace Sys2Proof

/-! The command words: decoding and encoding are inverse to each other. -/

/-- The commands over every buffer that they can name. -/
def allCommands : List Instr :=
  [.tobits, .frombits, .last3, .top3, .expand3, .merge, .revealch, .embed, .reveal .img0, .reveal .img1,
    .getpixel .img0, .getpixel .img1, .setpixel .img0, .setpixel .img1]

theorem mem_allCommands (i : Instr) : i ∈ allCommands := by
  cases i with
  | reveal b | getpixel b | setpixel b => cases b <;> decide
  | _ => decide

@[simp] theorem decode_encode (i : Instr) : decode (encode i) = .ok i := by
  cases i with
  | reveal b | getpixel b | setpixel b => cases b <;> rfl
  | _ => rfl

theorem bufBits_bufOfBit_inj : ∀ {b c : Bit}, bufBits (bufOfBit b) = bufBits (bufOfBit c) → b = c := by decide

/-- No command has two words: its row fixes OPC, and BUF is its buffer's or 0. -/
theorem decode_inj {v w : Word} {i : Instr} (hv : decode v = .ok i) (hw : decode w = .ok i) : v = w := by
  obtain ⟨zv, cv, bv⟩ := (decode_eq_ok_iff v i).mp hv
  obtain ⟨zw, cw, bw⟩ := (decode_eq_ok_iff w i).mp hw
  obtain ⟨mv, ov⟩ := commandAt_row _ _ i cv
  obtain ⟨mw, ow⟩ := commandAt_row _ _ i cw
  have hopc : opcField v = opcField w := by
    have := congrArg (BitVec.setWidth 8) (mv.symm.trans mw)
    simpa using this
  have hbuf : bufField v = bufField w := by
    cases ht : takesBuf i with
    | true =>
      rw [ht] at ov ow
      exact bufBits_bufOfBit_inj (ov.symm.trans ow)
    | false =>
      have h0 : ∀ {b : Bit}, ¬ (b = 1 ∧ takesBuf i = false) → b = 0 :=
        fun h => (bit_cases _).resolve_right fun h1 => h ⟨h1, ht⟩
      rw [h0 bv, h0 bw]
  exact word_ext_of_fields zv zw hopc hbuf

/-- A word decodes to a command exactly when it is that command's word (R74, R82). -/
theorem decode_eq_ok_iff_eq_encode (w : Word) (i : Instr) : decode w = .ok i ↔ w = encode i :=
  ⟨fun h => decode_inj h (decode_encode i), fun h => h ▸ decode_encode i⟩

/-- The legal words are the words of the listed commands. -/
theorem decode_isOk_iff_mem (w : Word) : (∃ i, decode w = .ok i) ↔ w ∈ allCommands.map encode := by
  simp only [decode_eq_ok_iff_eq_encode, List.mem_map, mem_allCommands, true_and, @eq_comm _ w]

/-! The rows of the opcode map. -/

theorem encode_and_rowMask (i : Instr) : encode i &&& rowMask i = rowMatch i := by
  cases i with
  | reveal b | getpixel b | setpixel b => cases b <;> decide
  | _ => decide

/-- A row's mask and match select the command whose operand bits are those that the word has outside the mask. -/
theorem and_rowMask_eq_iff {w : Word} {i : Instr} (h : w &&& ~~~ rowMask i = operandBits i) :
    w &&& rowMask i = rowMatch i ↔ decode w = .ok i := by
  rw [decode_eq_ok_iff_eq_encode]
  constructor
  · intro hm
    calc w = (w &&& rowMask i) ||| (w &&& ~~~ rowMask i) := by
          rw [← BitVec.and_or_distrib_left, BitVec.or_not_self, BitVec.and_allOnes]
      _ = encode i := by rw [hm, h, encode]
  · rintro rfl
    exact encode_and_rowMask i

/-- A full mask leaves no operand bit. -/
theorem and_not_fullMask (w : Word) : w &&& ~~~ 0xFFFFFFFF = 0 := BitVec.and_zero

/-- The one bit outside the mask of a row with a buffer is BUF. -/
theorem and_not_bufMask (w : Word) :
    w &&& ~~~ 0xFFFFFEFF = bufBits (if w.toNat / 2 ^ 8 % 2 = 1 then .img1 else .img0) := by
  have hbit : (w &&& ~~~ 0xFFFFFEFF).toNat = (w.toNat.testBit 8).toNat * 2 ^ 8 := Nat.and_two_pow w.toNat 8
  rw [Nat.testBit_eq_decide_div_mod_eq] at hbit
  apply BitVec.eq_of_toNat_eq
  rw [hbit]
  by_cases h : w.toNat / 2 ^ 8 % 2 = 1
  · rw [if_pos h, decide_eq_true h]
    rfl
  · rw [if_neg h, decide_eq_false h]
    rfl

/-- Settles O4: inside the mask a word has the row's match, outside it the operand bits, and no other bit. -/
theorem rowsSelectByMaskAndMatch : Obligations.RowsSelectByMaskAndMatch := by
  intro w
  have fixed := and_not_fullMask w
  have onBuf := and_not_bufMask w
  exact ⟨and_rowMask_eq_iff (i := .tobits) fixed, and_rowMask_eq_iff (i := .frombits) fixed,
    and_rowMask_eq_iff (i := .last3) fixed, and_rowMask_eq_iff (i := .top3) fixed,
    and_rowMask_eq_iff (i := .expand3) fixed, and_rowMask_eq_iff (i := .merge) fixed,
    and_rowMask_eq_iff (i := .revealch) fixed, and_rowMask_eq_iff (i := .embed) fixed,
    and_rowMask_eq_iff (i := .reveal _) onBuf, and_rowMask_eq_iff (i := .getpixel _) onBuf,
    and_rowMask_eq_iff (i := .setpixel _) onBuf, decode_isOk_iff_mem w⟩

/-! The illegal words. -/

theorem commandAt_eq_none_iff (opc : Byte) (b : Buf) : commandAt opc b = none ↔
    opc.toNat ∉ [0x01, 0x02, 0x03, 0x04, 0x05, 0x06, 0x07, 0x10, 0x11, 0x20, 0x21] := by
  cases b <;> revert opc <;> decide

theorem commandAt_takesNoBuf_iff (opc : Byte) (b : Buf) : (∃ i ∈ commandAt opc b, takesBuf i = false) ↔
    opc.toNat ∈ [0x01, 0x02, 0x03, 0x04, 0x05, 0x06, 0x07, 0x10] := by
  cases b <;> revert opc <;> decide

/-- The three causes of R76, on the word's number. -/
theorem decode_isError_iff (w : Word) : (∃ e, decode w = .error e) ↔
    w.toNat / 2 ^ 9 ≠ 0 ∨
    w.toNat % 2 ^ 8 ∉ [0x01, 0x02, 0x03, 0x04, 0x05, 0x06, 0x07, 0x10, 0x11, 0x20, 0x21] ∨
    (w.toNat / 2 ^ 8 % 2 = 1 ∧ w.toNat % 2 ^ 8 ∈ [0x01, 0x02, 0x03, 0x04, 0x05, 0x06, 0x07, 0x10]) := by
  have hbuf : (∃ i, commandAt (opcField w) (bufOfBit (bufField w)) = some i ∧ bufField w = 1 ∧ takesBuf i = false) ↔
      bufField w = 1 ∧ ∃ i ∈ commandAt (opcField w) (bufOfBit (bufField w)), takesBuf i = false :=
    ⟨fun ⟨i, hi, hb, ht⟩ => ⟨hb, i, hi, ht⟩, fun ⟨hb, i, hi, ht⟩ => ⟨i, hi, hb, ht⟩⟩
  rw [decode_eq_error_iff, hbuf, commandAt_takesNoBuf_iff, commandAt_eq_none_iff, bufField_eq_one_iff, opcField_toNat,
    ne_eq, zeroField_eq_zero_iff]

end Sys2Proof

namespace Sys2Proof.Machine

/-- Writing an illegal word to CMD takes the IllegalCommand exception (R174). -/
theorem hostWrite_cmd_of_illegal {w : Word} (h : ∃ e, decode w = .error e) (s : State) :
    hostWrite .cmd w s = .next (raise .illegalCommand s) := by
  obtain ⟨e, he⟩ := h
  rcases issue_cases w s with ⟨i, hi, -⟩ | ⟨_, -, hr⟩
  · cases he.symm.trans hi
  · exact hr

/-- Settles O3: the decoder refuses a word for a cause of R76, and then the command issue is the exception alone. -/
theorem illegalWordsRaiseIllegalCommand : Obligations.IllegalWordsRaiseIllegalCommand :=
  fun w => ⟨decode_isError_iff w, hostWrite_cmd_of_illegal⟩

end Sys2Proof.Machine

namespace Sys2Proof.Machine

/-! The pure functions of BitOps as numbers (R90 to R94). -/

theorem bitOf_toNat (n : Byte) (k : Nat) : (bitOf n k).toNat = n.toNat / 2 ^ k % 2 := by
  simp [bitOf, Nat.shiftRight_eq_div_pow]

/-- Element k of the decomposition is bit 7-k (R90). -/
theorem toBits_getElem (n : Byte) (k : Nat) (h : k < 8) : (toBits n)[k] = bitOf n (7 - k) := by
  interval_cases k <;> rfl

/-- The recomposed value fits in a byte (R91, R95). -/
theorem fromBits_toNat (q : BitSeq) : (fromBits q).toNat =
    128 * q[0].toNat + 64 * q[1].toNat + 32 * q[2].toNat + 16 * q[3].toNat +
      8 * q[4].toNat + 4 * q[5].toNat + 2 * q[6].toNat + q[7].toNat := by
  refine (BitVec.toNat_ofNat _ 8).trans (Nat.mod_eq_of_lt ?_)
  omega

@[simp] theorem fromBits_toBits (n : Byte) : fromBits (toBits n) = n := by
  apply BitVec.eq_of_toNat_eq
  simp only [fromBits_toNat, toBits_getElem, bitOf_toNat]
  omega

/-- The three least significant bits are the remainder by 8 (R92). -/
theorem last3BitsValue_toNat (n : Byte) : (last3BitsValue n).toNat = n.toNat % 8 := by
  simp only [last3BitsValue, toBits_getElem, bitOf_toNat, BitVec.toNat_ofNat]
  omega

/-- The three most significant bits are the quotient by 32 (R93). -/
theorem top3Bits_toNat (n : Byte) : (top3Bits n).toNat = n.toNat / 32 := by
  simp only [top3Bits, toBits_getElem, bitOf_toNat, BitVec.toNat_ofNat]
  omega

/-- The re-expanded value fits in a byte (R94, R95). -/
theorem expandTop3_toNat (v : Uint3) : (expandTop3 v).toNat = 16 + 32 * v.toNat := by
  simp only [expandTop3, Config.offset, Nat.shiftRight_eq_div_pow, BitVec.toNat_ofNat]
  omega

/-! A command whose first step reads ARG0 as a channel operand (R96). -/

theorem holdsChannel_iff (w : Word) : HoldsChannel w ↔ w.toNat < 256 := by
  rw [← validChannel_sint, sint_eq_toInt]

theorem toInt_of_holdsChannel {w : Word} (h : HoldsChannel w) : w.toInt = w.toNat := by
  have := (holdsChannel_iff w).mp h
  rw [← sint_eq_toInt, sint_of_lt (by omega)]

/-- The operand is read exactly (R96). -/
theorem channel_of_holdsChannel {w : Word} (h : HoldsChannel w) : ∃ n : Byte, channel w = .ok n ∧ n.toNat = w.toNat :=
  have hn := channel_of_valid ((holdsChannel_iff w).mp h)
  ⟨_, hn, (channel_eq_ok hn).2⟩

section
variable {i : Instr} {s : State} {rest : Byte → Except Kind State}

/-- With a valid operand the rest of the pseudocode runs on its value. -/
theorem exec_of_holdsChannel (hi : execBody i s = (channel s.arg0).bind rest) (h : HoldsChannel s.arg0) :
    ∃ n : Byte, n.toNat = s.arg0.toNat ∧ exec i s = finish s (rest n) := by
  obtain ⟨n, hn, hv⟩ := channel_of_holdsChannel h
  exact ⟨n, hv, by rw [exec_eq_finish, hi, hn]; rfl⟩

/-- Any other operand raises InvalidChannelValue, with no effect but the exception's (R172, R178). -/
theorem exec_of_not_holdsChannel (hi : execBody i s = (channel s.arg0).bind rest) (h : ¬ HoldsChannel s.arg0) :
    exec i s = .next { s with status := ⟨2, true⟩ } := by
  rw [exec_eq_finish, hi, channel_of_invalid (mt (holdsChannel_iff _).mpr h)]
  rfl

end

/-- A success that leaves a value in RES0 writes that value's word and CODE, and nothing else (R17, R29). -/
theorem complete_writeRes0 {w m : Nat} {v : BitVec w} (h : v.toNat = m) (s : State) :
    complete (writeRes0 v s) = { s with res0 := BitVec.ofNat 32 m, status := ⟨0, s.status.stk⟩ } := by
  rw [← h, BitVec.ofNat_toNat]
  rfl

/-- What a command does that leaves a function of its one channel operand in RES0: `g` on bytes, `value` on numbers. -/
theorem exec_res0_of_channel {i : Instr} {w : Nat} {g : Byte → BitVec w} (value : Nat → Nat)
    (hi : ∀ s, execBody i s = (channel s.arg0).bind fun n => .ok (writeRes0 (g n) s))
    (hg : ∀ n, (g n).toNat = value n.toNat) (s : State) :
    (HoldsChannel s.arg0 → exec i s =
      .next { s with res0 := BitVec.ofNat 32 (value s.arg0.toNat), status := ⟨0, s.status.stk⟩ }) ∧
    (¬ HoldsChannel s.arg0 → exec i s = .next { s with status := ⟨2, true⟩ }) := by
  refine ⟨fun h => ?_, exec_of_not_holdsChannel (hi s)⟩
  obtain ⟨n, hn, hx⟩ := exec_of_holdsChannel (hi s) h
  rw [hx, finish_ok, complete_writeRes0 (hg n), hn]

/-! TOBITS and FROMBITS (R97, R98). -/

theorem execBody_tobits (s : State) :
    execBody .tobits s = (channel s.arg0).bind fun n => .ok (writeBits (toBits n) s) := rfl

/-- The recomposition of a decomposed operand is the operand's word (R97, R98). -/
theorem zext32_fromBits_toBits {n : Byte} {w : Word} (h : n.toNat = w.toNat) : zext32 (fromBits (toBits n)) = w := by
  rw [fromBits_toBits, zext32, ← BitVec.ofNat_toNat, h, BitVec.ofNat_toNat, BitVec.setWidth_eq]

/-- Settles O14: BITS takes the operand's decomposition, which recomposes to the operand. -/
theorem tobitsDecomposes : Obligations.TobitsDecomposes := by
  refine ⟨decode_encode .tobits, fun s => ⟨fun h => ?_, exec_of_not_holdsChannel (execBody_tobits s)⟩⟩
  obtain ⟨n, hn, hx⟩ := exec_of_holdsChannel (execBody_tobits s) h
  refine ⟨_, hx, rfl, fun k hk => ?_, zext32_fromBits_toBits hn⟩
  rw [complete_bits, writeBits_bits, toBits_getElem, bitOf_toNat, hn]

/-- Settles O15: FROMBITS recomposes whatever BITS holds, so after TOBITS it gives the operand back. -/
theorem frombitsRecomposes : Obligations.FrombitsRecomposes := by
  refine ⟨decode_encode .frombits, fun s => ⟨?_, fun h => ?_⟩⟩
  · exact congrArg _ (complete_writeRes0 (fromBits_toNat s.bits) s)
  · obtain ⟨n, hn, hx⟩ := exec_of_holdsChannel (execBody_tobits s) h
    exact ⟨_, _, hx, rfl, zext32_fromBits_toBits hn⟩

/-! LAST3, TOP3 and EXPAND3 (R99 to R101). -/

/-- Settles O16: the three low bits of the operand are its remainder by 8. -/
theorem lastThreeIsTheRemainderByEight : Obligations.LastThreeIsTheRemainderByEight :=
  ⟨decode_encode .last3, exec_res0_of_channel (· % 8) (fun _ => rfl) last3BitsValue_toNat⟩

/-- Settles O17: the three high bits of the operand are its quotient by 32. -/
theorem topThreeIsTheQuotientByThirtyTwo : Obligations.TopThreeIsTheQuotientByThirtyTwo :=
  ⟨decode_encode .top3, exec_res0_of_channel (· / 32) (fun _ => rfl) top3Bits_toNat⟩

theorem execBody_expand3 (s : State) : execBody .expand3 s =
    (channel s.arg0).bind fun n => (threeBits n).map fun v => writeRes0 (expandTop3 v) s := by
  simp only [execBody]
  cases channel s.arg0 <;> rfl

/-- A valid 3-bit operand is re-expanded (R101). -/
theorem exec_expand3_of_le {s : State} (h : HoldsChannel s.arg0) (h7 : s.arg0.toNat ≤ 7) : exec .expand3 s =
    .next { s with res0 := BitVec.ofNat 32 (16 + 32 * s.arg0.toNat), status := ⟨0, s.status.stk⟩ } := by
  obtain ⟨n, hn, hx⟩ := exec_of_holdsChannel (execBody_expand3 s) h
  have hv : (n.setWidth 3).toNat = s.arg0.toNat := by
    rw [BitVec.toNat_setWidth, hn]
    omega
  rw [hx, threeBits_of_le (hn ▸ h7)]
  exact congrArg _ (complete_writeRes0 (hv ▸ expandTop3_toNat _) s)

/-- A channel operand above 7 raises InvalidOperand (R101, R175). -/
theorem exec_expand3_of_gt {s : State} (h : HoldsChannel s.arg0) (h7 : 7 < s.arg0.toNat) :
    exec .expand3 s = .next { s with status := ⟨5, true⟩ } := by
  obtain ⟨n, hn, hx⟩ := exec_of_holdsChannel (execBody_expand3 s) h
  rw [hx, threeBits_of_gt (hn ▸ h7)]
  rfl

/-- Settles O18: a channel operand's three-bit test decides between the re-expansion and InvalidOperand. -/
theorem expandThreeReexpands : Obligations.ExpandThreeReexpands := by
  refine ⟨decode_encode .expand3, fun s => ⟨fun ⟨h0, h7⟩ => ?_, fun ⟨h8, h255⟩ => ?_,
    exec_of_not_holdsChannel (execBody_expand3 s)⟩⟩
  · have h : HoldsChannel s.arg0 := ⟨h0, by omega⟩
    have := toInt_of_holdsChannel h
    exact exec_expand3_of_le h (by omega)
  · have h : HoldsChannel s.arg0 := ⟨by omega, h255⟩
    have := toInt_of_holdsChannel h
    exact exec_expand3_of_gt h (by omega)

end Sys2Proof.Machine

namespace Sys2Proof.Machine

/-! One channel of the embedding as a number (R110). -/

/-- The cover keeps its five high bits and takes the hidden value's three high bits as its low ones. -/
theorem mergeChannel_toNat (c h : Byte) : (mergeChannel c h).toNat = 8 * (c.toNat / 8) + h.toNat / 32 := by
  have merged : (mergeChannel c h).toNat =
      128 * (bitOf c 7).toNat + 64 * (bitOf c 6).toNat + 32 * (bitOf c 5).toNat + 16 * (bitOf c 4).toNat +
        8 * (bitOf c 3).toNat + 4 * (bitOf h 7).toNat + 2 * (bitOf h 6).toNat + (bitOf h 5).toNat :=
    fromBits_toNat _
  rw [merged]
  simp only [bitOf_toNat]
  omega

theorem and_topFive_toNat : ∀ c : Byte, c.toNat &&& 0xF8 = 8 * (c.toNat / 8) := by decide

/-- Step 3 of R110: the merged value is a mask of the cover and a shift of the hidden value, whose bits do not overlap. -/
theorem mergeChannel_toNat_eq_or (c h : Byte) :
    (mergeChannel c h).toNat = (c.toNat &&& 0xF8) ||| (h.toNat >>> 5) := by
  have disjoint : 8 * (c.toNat / 8) + h.toNat / 32 = 8 * (c.toNat / 8) ||| h.toNat / 32 :=
    Nat.two_pow_add_eq_or_of_lt (i := 3) (by omega) _
  rw [mergeChannel_toNat, disjoint, and_topFive_toNat, Nat.shiftRight_eq_div_pow]

theorem mergeChannel_eq_or (c h : Byte) : mergeChannel c h = (c &&& 0xF8#8) ||| (h >>> 5) :=
  BitVec.eq_of_toNat_eq (mergeChannel_toNat_eq_or c h)

/-! MERGE (R111). -/

/-- The merged byte of two channel operands, as the registers' words give it. -/
theorem mergeChannel_toNat_eq_word {c h : Byte} {v w : Word} (hc : c.toNat = v.toNat) (hh : h.toNat = w.toNat) :
    (mergeChannel c h).toNat = ((v &&& 0xF8#32) ||| (w >>> 5)).toNat := by
  rw [mergeChannel_toNat_eq_or, hc, hh]
  rfl

theorem execBody_merge (s : State) : execBody .merge s =
    (channel s.arg0).bind fun c => (channel s.arg1).map fun h => writeRes0 (mergeChannel c h) s := rfl

/-- Two valid operands are merged in RES0 (R111). -/
theorem exec_merge_of_holdsChannel {s : State} (h0 : HoldsChannel s.arg0) (h1 : HoldsChannel s.arg1) :
    exec .merge s =
      .next { s with res0 := (s.arg0 &&& 0xF8#32) ||| (s.arg1 >>> 5), status := ⟨0, s.status.stk⟩ } := by
  obtain ⟨c, hc, hx⟩ := exec_of_holdsChannel (execBody_merge s) h0
  obtain ⟨h, hh, hv⟩ := channel_of_holdsChannel h1
  rw [hx, hh]
  refine congrArg _ ((complete_writeRes0 (mergeChannel_toNat_eq_word hc hv) s).trans ?_)
  rw [BitVec.ofNat_toNat, BitVec.setWidth_eq]

/-- An invalid second operand raises InvalidChannelValue, as an invalid first one does (R111, R172). -/
theorem exec_merge_of_not_holdsChannel_arg1 {s : State} (h0 : HoldsChannel s.arg0) (h1 : ¬ HoldsChannel s.arg1) :
    exec .merge s = .next { s with status := ⟨2, true⟩ } := by
  obtain ⟨c, -, hx⟩ := exec_of_holdsChannel (execBody_merge s) h0
  rw [hx, channel_of_invalid (mt (holdsChannel_iff _).mpr h1)]
  rfl

/-- Settles O19: with both operands valid the merged byte is the mask and shift of R110, and the first invalid operand
raises. -/
theorem mergeCombinesTwoChannels : Obligations.MergeCombinesTwoChannels := by
  refine ⟨decode_encode .merge, fun s => ⟨fun ⟨h0, h1⟩ => exec_merge_of_holdsChannel h0 h1, fun h => ?_⟩⟩
  by_cases h0 : HoldsChannel s.arg0
  · exact exec_merge_of_not_holdsChannel_arg1 h0 fun h1 => h ⟨h0, h1⟩
  · exact exec_of_not_holdsChannel (execBody_merge s) h0

/-! EMBED (R112, R113). -/

/-- The three channels of a pixel are merged independently (R115). -/
@[simp] theorem chanOf_mergePixel (p q : Pixel) (c : Chan) :
    chanOf (mergePixel p q) c = mergeChannel (chanOf p c) (chanOf q c) := by cases c <;> rfl

/-- Each byte of the embedded image depends on the same byte of the two images only (R58, R112). -/
theorem chanOf_embedImage (cover hidden : Image) (x y : Coord) (c : Chan) :
    chanOf (embedImage cover hidden x y) c = mergeChannel (chanOf (cover x y) c) (chanOf (hidden x y) c) :=
  chanOf_mergePixel _ _ c

@[simp] theorem chanOf_imageOf (s : State) (b : Buf) (x y : Coord) (c : Chan) :
    chanOf (imageOf s b x y) c = byteAt s b x y c := chanOf_readPixel s b x y c

/-- The end of EMBED's pseudocode: the embedded image is in IMG0 and CODE is 0 (R113). -/
def embedded (s : State) : State :=
  complete (writeImage .img0 (embedImage (imageOf s .img0) (imageOf s .img1)) s)

theorem exec_embed_of_eq {s : State} (h : s.w0 = s.w1 ∧ s.h0 = s.h1) : exec .embed s = .next (embedded s) := by
  rw [exec_eq_finish, execBody, sameDimensions_of_eq h.1 h.2]
  rfl

/-- Unequal dimensions raise DimensionMismatch, with no effect but the exception's (R173, R178). -/
theorem exec_embed_of_ne {s : State} (h : ¬ (s.w0 = s.w1 ∧ s.h0 = s.h1)) :
    exec .embed s = .next { s with status := ⟨3, true⟩ } := by
  rw [exec_eq_finish, execBody, sameDimensions_of_ne h]
  rfl

/-- EMBED writes IMG0 and STATUS alone. -/
theorem embedded_eq (s : State) :
    embedded s = { s with img0 := (embedded s).img0, status := ⟨0, s.status.stk⟩ } := rfl

/-- EMBED merges every byte of IMG0's image with the byte of IMG1 at the same place. -/
theorem byteAt_embedded_of_inImage {s : State} {x y : Coord} (h : InImage s .img0 x y) (c : Chan) :
    byteAt (embedded s) .img0 x y c = mergeChannel (byteAt s .img0 x y c) (byteAt s .img1 x y c) := by
  rw [embedded, byteAt_complete, byteAt_writeImage, if_pos ⟨rfl, h⟩, chanOf_embedImage, chanOf_imageOf, chanOf_imageOf]

/-- EMBED leaves every byte outside IMG0's image as it was. -/
theorem byteAt_embedded_of_not_inImage {s : State} {x y : Coord} (h : ¬ InImage s .img0 x y) (c : Chan) :
    byteAt (embedded s) .img0 x y c = byteAt s .img0 x y c := by
  rw [embedded, byteAt_complete, byteAt_writeImage, if_neg fun hin => h hin.2]

@[simp] theorem byteAt_embedded_img1 (s : State) (x y : Coord) (c : Chan) :
    byteAt (embedded s) .img1 x y c = byteAt s .img1 x y c :=
  byteAt_congr (s := s) (t := embedded s) .img1 rfl x y c

/-- Settles O21: the dimension check decides between the embedded image in IMG0 and DimensionMismatch. -/
theorem embedMergesTheWholeImage : Obligations.EmbedMergesTheWholeImage := by
  refine ⟨decode_encode .embed, fun s => ⟨fun h => ?_, exec_embed_of_ne⟩⟩
  refine ⟨embedded s, exec_embed_of_eq h, embedded_eq s, fun x y c hin => ?_,
    fun x y c hout => byteAt_embedded_of_not_inImage hout c, byteAt_embedded_img1 s⟩
  rw [byteAt_embedded_of_inImage hin, mergeChannel_eq_or]

end Sys2Proof.Machine

namespace Sys2Proof.Machine

/-! REVEALCH (R125, R126). -/

/-- The three low bits of a byte become its three high bits, over the constant 16 (R125, R132). -/
theorem revealChannel_toNat (n : Byte) : (revealChannel n).toNat = 16 + 32 * (n.toNat % 8) := by
  rw [revealChannel, expandTop3_toNat, last3BitsValue_toNat]

/-- Settles O20: REVEALCH leaves the revealed value of its one channel operand in RES0. -/
theorem revealchAmplifiesTheLowBits : Obligations.RevealchAmplifiesTheLowBits :=
  ⟨decode_encode .revealch, exec_res0_of_channel (fun n => 16 + 32 * (n % 8)) (fun _ => rfl) revealChannel_toNat⟩

/-! REVEAL (R127, R128). -/

/-- The three channels of a pixel are revealed independently (R127). -/
@[simp] theorem chanOf_revealPixel (p : Pixel) (c : Chan) :
    chanOf (revealPixel p) c = revealChannel (chanOf p c) := by cases c <;> rfl

/-- Each byte of the revealed image depends on the same byte of the image only (R58, R127). -/
theorem chanOf_revealImage (image : Image) (x y : Coord) (c : Chan) :
    chanOf (revealImage image x y) c = revealChannel (chanOf (image x y) c) :=
  chanOf_revealPixel _ c

/-- The end of REVEAL's pseudocode: the revealed image is in the selected buffer and CODE is 0 (R128). -/
def revealed (b : Buf) (s : State) : State :=
  complete (writeImage b (revealImage (imageOf s b)) s)

/-- REVEAL never fails (R128). -/
theorem exec_reveal (b : Buf) (s : State) : exec (.reveal b) s = .next (revealed b s) := rfl

/-- REVEAL writes the selected buffer and STATUS alone. -/
theorem revealed_eq (b : Buf) (s : State) : revealed b s = { s with
    img0 := if b = .img0 then (revealed b s).img0 else s.img0
    img1 := if b = .img1 then (revealed b s).img1 else s.img1
    status := ⟨0, s.status.stk⟩ } := by cases b <;> rfl

/-- REVEAL reveals every byte of the selected buffer's image in place, and every other byte of both buffers is as before. -/
theorem byteAt_revealed (b : Buf) (s : State) (a : Buf) (x y : Coord) (c : Chan) :
    byteAt (revealed b s) a x y c =
      if a = b ∧ InImage s b x y then revealChannel (byteAt s b x y c) else byteAt s a x y c := by
  rw [revealed, byteAt_complete, byteAt_writeImage, chanOf_revealImage, chanOf_imageOf]

/-- Settles O22: REVEAL has one outcome, the revealed image in the selected buffer. -/
theorem revealReplacesTheWholeImage : Obligations.RevealReplacesTheWholeImage := by
  refine ⟨decode_encode (.reveal .img0), decode_encode (.reveal .img1), fun s b => ?_⟩
  refine ⟨revealed b s, exec_reveal b s, revealed_eq b s, fun x y c inside => ?_, fun x y c outside => ?_,
    fun a x y c other => ?_⟩
  · rw [byteAt_revealed, if_pos ⟨rfl, inside⟩, revealChannel_toNat]
  · rw [byteAt_revealed, if_neg fun h => outside h.2]
  · rw [byteAt_revealed, if_neg fun h => other h.1]

end Sys2Proof.Machine

namespace Sys2Proof.Machine

/-! The coordinate of a pixel command (R140, R141). -/

/-- A word names a coordinate exactly when it holds the coordinate's number: no word with bit 31 set does (R28). -/
theorem toInt_eq_coord_iff {w : Word} {x : Coord} : w.toInt = (x.toNat : Int) ↔ w.toNat = x.toNat := by
  have := x.isLt
  have := w.isLt
  rw [← sint_eq_toInt]
  unfold sint
  split <;> omega

theorem argsName_iff {s : State} {x y : Coord} :
    ArgsName s x y ↔ s.argx.toNat = x.toNat ∧ s.argy.toNat = y.toNat := and_congr toInt_eq_coord_iff toInt_eq_coord_iff

theorem argsInBounds_iff {s : State} {b : Buf} :
    ArgsInBounds s b ↔ s.argx.toNat < (width s b).toNat ∧ s.argy.toNat < (height s b).toNat := by
  rw [← inBounds_sint, sint_eq_toInt, sint_eq_toInt]

/-- A word below a dimension keeps its number as a coordinate (R45). -/
theorem toNat_setWidth_of_lt_dim {w : Word} {d : Dim} (h : w.toNat < d.toNat) :
    (w.setWidth 31 : Coord).toNat = w.toNat :=
  (BitVec.toNat_setWidth 31 w).trans (Nat.mod_eq_of_lt (h.trans d.isLt))

/-- Arguments in bounds name a pixel of the image (R41, R45). -/
theorem exists_argsName_inImage {s : State} {b : Buf} (h : ArgsInBounds s b) :
    ∃ x y : Coord, ArgsName s x y ∧ InImage s b x y := by
  obtain ⟨hx, hy⟩ := argsInBounds_iff.mp h
  have ex := toNat_setWidth_of_lt_dim hx
  have ey := toNat_setWidth_of_lt_dim hy
  exact ⟨_, _, argsName_iff.mpr ⟨ex.symm, ey.symm⟩, ex ▸ hx, ey ▸ hy⟩

/-- The effective address is the pixel that the arguments name (R140). -/
theorem pixelAddress_of_argsName {s : State} {b : Buf} {x y : Coord} (hn : ArgsName s x y) (hin : InImage s b x y) :
    pixelAddress b s = .ok (x, y) := by
  obtain ⟨ex, ey⟩ := argsName_iff.mp hn
  obtain ⟨hx, hy⟩ := hin
  rw [← ex] at hx
  rw [← ey] at hy
  rw [pixelAddress_of_inBounds ⟨hx, hy⟩, BitVec.eq_of_toNat_eq ((toNat_setWidth_of_lt_dim hx).trans ex),
    BitVec.eq_of_toNat_eq ((toNat_setWidth_of_lt_dim hy).trans ey)]

section
variable {i : Instr} {s : State} {b : Buf} {rest : Coord × Coord → Except Kind State}

/-- With the arguments on a pixel of the image the rest of the pseudocode runs on that pixel. -/
theorem exec_of_argsName (hi : execBody i s = (pixelAddress b s).bind rest) {x y : Coord} (hn : ArgsName s x y)
    (hin : InImage s b x y) : exec i s = finish s (rest (x, y)) := by
  rw [exec_eq_finish, hi, pixelAddress_of_argsName hn hin]
  rfl

/-- Any other arguments raise OutOfBounds, with no effect but the exception's (R171, R178). -/
theorem exec_of_not_argsInBounds (hi : execBody i s = (pixelAddress b s).bind rest) (h : ¬ ArgsInBounds s b) :
    exec i s = .next { s with status := ⟨1, true⟩ } := by
  rw [exec_eq_finish, hi, pixelAddress_of_outOfBounds (mt argsInBounds_iff.mpr h)]
  rfl

end

/-! GETPIXEL (R140). -/

theorem execBody_getpixel (b : Buf) (s : State) : execBody (.getpixel b) s =
    (pixelAddress b s).bind fun a => .ok (writeRes (readPixel s b a.1 a.2) s) := rfl

/-- A success that leaves a pixel in the result registers writes its channels' words and CODE, and nothing else
(R17, R29). -/
theorem complete_writeRes (p : Pixel) (s : State) : complete (writeRes p s) = { s with
    res0 := BitVec.ofNat 32 p.r.toNat
    res1 := BitVec.ofNat 32 p.g.toNat
    res2 := BitVec.ofNat 32 p.bl.toNat
    status := ⟨0, s.status.stk⟩ } := by
  simp only [BitVec.ofNat_toNat]
  rfl

theorem exec_getpixel_of_argsName {s : State} {b : Buf} {x y : Coord} (hn : ArgsName s x y) (hin : InImage s b x y) :
    exec (.getpixel b) s = .next (complete (writeRes (readPixel s b x y) s)) :=
  exec_of_argsName (execBody_getpixel b s) hn hin

/-- Settles O23: the effective address decides between the pixel's channels in the results and OutOfBounds. -/
theorem getpixelReadsThePixel : Obligations.GetpixelReadsThePixel := by
  refine ⟨decode_encode (.getpixel .img0), decode_encode (.getpixel .img1), fun s b => ⟨fun x y hn hin => ?_,
    exists_argsName_inImage, exec_of_not_argsInBounds (execBody_getpixel b s)⟩⟩
  rw [exec_getpixel_of_argsName hn hin, complete_writeRes, readPixel]

/-! SETPIXEL (R141). -/

/-- The three components are read exactly (R96). -/
theorem components_of_holdsChannel {s : State} (h0 : HoldsChannel s.arg0) (h1 : HoldsChannel s.arg1)
    (h2 : HoldsChannel s.arg2) : ∃ p, components s = .ok p ∧
      p.r.toNat = s.arg0.toNat ∧ p.g.toNat = s.arg1.toNat ∧ p.bl.toNat = s.arg2.toNat := by
  obtain ⟨r, hr, er⟩ := channel_of_holdsChannel h0
  obtain ⟨g, hg, eg⟩ := channel_of_holdsChannel h1
  obtain ⟨bl, hbl, ebl⟩ := channel_of_holdsChannel h2
  exact ⟨⟨r, g, bl⟩, by rw [components, hr, hg, hbl]; rfl, er, eg, ebl⟩

theorem components_of_not_holdsChannel {s : State}
    (h : ¬ (HoldsChannel s.arg0 ∧ HoldsChannel s.arg1 ∧ HoldsChannel s.arg2)) :
    components s = .error .invalidChannelValue := by
  simp only [holdsChannel_iff] at h
  exact components_of_invalid h

theorem execBody_setpixel (b : Buf) (s : State) : execBody (.setpixel b) s =
    (pixelAddress b s).bind fun a => (components s).map fun p => writePixel b a.1 a.2 p s := rfl

/-- The pixel that the arguments name is written with the three components (R141). -/
theorem exec_setpixel_of_components {s : State} {b : Buf} {x y : Coord} {p : Pixel} (hn : ArgsName s x y)
    (hin : InImage s b x y) (hp : components s = .ok p) :
    exec (.setpixel b) s = .next (complete (writePixel b x y p s)) := by
  rw [exec_of_argsName (execBody_setpixel b s) hn hin, hp]
  rfl

/-- In bounds an invalid component raises InvalidChannelValue (R141, R172, R178). -/
theorem exec_setpixel_of_not_holdsChannel {s : State} {b : Buf} (hin : ArgsInBounds s b)
    (h : ¬ (HoldsChannel s.arg0 ∧ HoldsChannel s.arg1 ∧ HoldsChannel s.arg2)) :
    exec (.setpixel b) s = .next { s with status := ⟨2, true⟩ } := by
  obtain ⟨x, y, hn, hxy⟩ := exists_argsName_inImage hin
  rw [exec_of_argsName (execBody_setpixel b s) hn hxy, components_of_not_holdsChannel h]
  rfl

/-- SETPIXEL writes the selected buffer and STATUS alone. -/
theorem complete_writePixel_eq (b : Buf) (x y : Coord) (p : Pixel) (s : State) :
    complete (writePixel b x y p s) = { s with
      img0 := if b = .img0 then (complete (writePixel b x y p s)).img0 else s.img0
      img1 := if b = .img1 then (complete (writePixel b x y p s)).img1 else s.img1
      status := ⟨0, s.status.stk⟩ } := by cases b <;> rfl

/-- The written pixel holds the components, channel by channel. -/
theorem byteAt_complete_writePixel_same (b : Buf) (x y : Coord) (p : Pixel) (s : State) (c : Chan) :
    byteAt (complete (writePixel b x y p s)) b x y c = chanOf p c := by
  rw [byteAt_complete, byteAt_writePixel, if_pos ⟨rfl, rfl, rfl⟩]

/-- Every other byte of both buffers is as before. -/
theorem byteAt_complete_writePixel_other {a b : Buf} {x' y' x y : Coord} (h : ¬ (a = b ∧ x' = x ∧ y' = y)) (p : Pixel)
    (s : State) (c : Chan) : byteAt (complete (writePixel b x y p s)) a x' y' c = byteAt s a x' y' c := by
  rw [byteAt_complete, byteAt_writePixel, if_neg h]

/-- Settles O24: the effective address and then the components decide between the write of one pixel and the two error
kinds. -/
theorem setpixelWritesOnePixel : Obligations.SetpixelWritesOnePixel := by
  refine ⟨decode_encode (.setpixel .img0), decode_encode (.setpixel .img1), fun s b => ⟨fun x y hn hin h0 h1 h2 => ?_,
    exists_argsName_inImage, exec_of_not_argsInBounds (execBody_setpixel b s), exec_setpixel_of_not_holdsChannel⟩⟩
  obtain ⟨p, hp, er, eg, ebl⟩ := components_of_holdsChannel h0 h1 h2
  have same := byteAt_complete_writePixel_same b x y p s
  refine ⟨_, exec_setpixel_of_components hn hin hp, complete_writePixel_eq b x y p s, ?_, ?_, ?_,
    fun _ _ _ c other => byteAt_complete_writePixel_other other p s c⟩
  · exact (congrArg BitVec.toNat (same .red)).trans er
  · exact (congrArg BitVec.toNat (same .green)).trans eg
  · exact (congrArg BitVec.toNat (same .blue)).trans ebl

end Sys2Proof.Machine

namespace Sys2Proof.Machine

/-! The cause of each error kind decides how a command issue ends (R171 to R178). -/

/-- Writing a legal word to CMD runs its command (R158). -/
theorem hostWrite_cmd_of_decode {w : Word} {i : Instr} (hd : decode w = .ok i) (s : State) :
    hostWrite .cmd w s = exec i s := by
  rcases issue_cases w s with ⟨j, hj, hx⟩ | ⟨e, he, -⟩
  · cases hd.symm.trans hj
    exact hx
  · cases hd.symm.trans he

/-- The commands with one channel operand all raise InvalidChannelValue for an invalid ARG0 (R172). -/
theorem exec_of_mem_of_not_holdsChannel {i : Instr} (hi : i ∈ [Instr.tobits, .last3, .top3, .expand3, .revealch])
    {s : State} (h : ¬ HoldsChannel s.arg0) : exec i s = .next { s with status := ⟨2, true⟩ } := by
  simp only [List.mem_cons, List.not_mem_nil, or_false] at hi
  rcases hi with rfl | rfl | rfl | rfl | rfl
  · exact (tobitsDecomposes.2 s).2 h
  · exact (lastThreeIsTheRemainderByEight.2 s).2 h
  · exact (topThreeIsTheQuotientByThirtyTwo.2 s).2 h
  · exact (expandThreeReexpands.2 s).2.2 h
  · exact (revealchAmplifiesTheLowBits.2 s).2 h

/-- A write to CMD that has the cause of a kind takes that kind's exception and has no other effect (R178). -/
theorem hostWrite_cmd_of_raises {s : State} {w : Word} {k : Kind} (h : Raises s w k) :
    hostWrite .cmd w s = .next { s with status := ⟨k.code, true⟩ } := by
  cases k with
  | outOfBounds =>
    obtain ⟨b, hd | hd, hout⟩ := h
    · exact (hostWrite_cmd_of_decode hd s).trans (exec_of_not_argsInBounds (execBody_getpixel b s) hout)
    · exact (hostWrite_cmd_of_decode hd s).trans (exec_of_not_argsInBounds (execBody_setpixel b s) hout)
  | invalidChannelValue =>
    obtain ⟨i, hd, hi, hv⟩ | ⟨hd, hv⟩ | ⟨b, hd, hin, hv⟩ := h
    · exact (hostWrite_cmd_of_decode hd s).trans (exec_of_mem_of_not_holdsChannel hi hv)
    · exact (hostWrite_cmd_of_decode hd s).trans ((mergeCombinesTwoChannels.2 s).2 hv)
    · exact (hostWrite_cmd_of_decode hd s).trans (exec_setpixel_of_not_holdsChannel hin hv)
  | dimensionMismatch =>
    obtain ⟨hd, hne⟩ := h
    exact (hostWrite_cmd_of_decode hd s).trans (exec_embed_of_ne hne)
  | illegalCommand => exact hostWrite_cmd_of_illegal h s
  | invalidOperand =>
    obtain ⟨hd, hv⟩ := h
    exact (hostWrite_cmd_of_decode hd s).trans ((expandThreeReexpands.2 s).2.1 hv)

/-- The run has a next state, and STATUS.CODE is 0 in it (R17). -/
def EndsOk (r : Host.Outcome State Fault Refusal) : Prop := ∃ t, r = .next t ∧ t.status.code = 0

/-- For a command with one channel operand only a valid operand is left to decide: an invalid one is a cause (R172). -/
theorem exec_endsOk_or_raises_of_channel {i : Instr} {s : State} {w : Word}
    (hi : i ∈ [Instr.tobits, .last3, .top3, .expand3, .revealch]) (hd : decode w = .ok i)
    (valid : HoldsChannel s.arg0 → EndsOk (exec i s) ∨ ∃ k, Raises s w k) :
    EndsOk (exec i s) ∨ ∃ k, Raises s w k := by
  by_cases h : HoldsChannel s.arg0
  · exact valid h
  · exact .inr ⟨.invalidChannelValue, .inl ⟨i, hd, hi, h⟩⟩

/-- A command without a cause of its kinds succeeds: the causes are complete (R176). -/
theorem exec_endsOk_or_raises {w : Word} {i : Instr} (hd : decode w = .ok i) (s : State) :
    EndsOk (exec i s) ∨ ∃ k, Raises s w k := by
  cases i with
  | tobits =>
    refine exec_endsOk_or_raises_of_channel (by decide) hd fun h => .inl ?_
    obtain ⟨n, -, hx⟩ := exec_of_holdsChannel (execBody_tobits s) h
    exact ⟨_, hx, rfl⟩
  | frombits => exact .inl ⟨_, rfl, rfl⟩
  | last3 =>
    exact exec_endsOk_or_raises_of_channel (by decide) hd fun h =>
      .inl ⟨_, (lastThreeIsTheRemainderByEight.2 s).1 h, rfl⟩
  | top3 =>
    exact exec_endsOk_or_raises_of_channel (by decide) hd fun h =>
      .inl ⟨_, (topThreeIsTheQuotientByThirtyTwo.2 s).1 h, rfl⟩
  | expand3 =>
    refine exec_endsOk_or_raises_of_channel (by decide) hd fun ⟨h0, h255⟩ => ?_
    by_cases h7 : s.arg0.toInt ≤ 7
    · exact .inl ⟨_, (expandThreeReexpands.2 s).1 ⟨h0, h7⟩, rfl⟩
    · exact .inr ⟨.invalidOperand, hd, by omega, h255⟩
  | merge =>
    by_cases h : HoldsChannel s.arg0 ∧ HoldsChannel s.arg1
    · exact .inl ⟨_, (mergeCombinesTwoChannels.2 s).1 h, rfl⟩
    · exact .inr ⟨.invalidChannelValue, .inr (.inl ⟨hd, h⟩)⟩
  | revealch =>
    exact exec_endsOk_or_raises_of_channel (by decide) hd fun h =>
      .inl ⟨_, (revealchAmplifiesTheLowBits.2 s).1 h, rfl⟩
  | embed =>
    by_cases h : s.w0 = s.w1 ∧ s.h0 = s.h1
    · exact .inl ⟨_, exec_embed_of_eq h, rfl⟩
    · exact .inr ⟨.dimensionMismatch, hd, h⟩
  | reveal b => exact .inl ⟨_, exec_reveal b s, rfl⟩
  | getpixel b =>
    by_cases hin : ArgsInBounds s b
    · obtain ⟨x, y, hn, hxy⟩ := exists_argsName_inImage hin
      exact .inl ⟨_, exec_getpixel_of_argsName hn hxy, rfl⟩
    · exact .inr ⟨.outOfBounds, b, .inl hd, hin⟩
  | setpixel b =>
    by_cases hin : ArgsInBounds s b
    · by_cases hv : HoldsChannel s.arg0 ∧ HoldsChannel s.arg1 ∧ HoldsChannel s.arg2
      · obtain ⟨x, y, hn, hxy⟩ := exists_argsName_inImage hin
        obtain ⟨h0, h1, h2⟩ := hv
        obtain ⟨p, hp, -⟩ := components_of_holdsChannel h0 h1 h2
        exact .inl ⟨_, exec_setpixel_of_components hn hxy hp, rfl⟩
      · exact .inr ⟨.invalidChannelValue, .inr (.inr ⟨b, hd, hin, hv⟩)⟩
    · exact .inr ⟨.outOfBounds, b, .inr hd, hin⟩

/-- A write to CMD that leaves CODE not 0 has the cause of a kind. -/
theorem exists_raises_of_code_ne_zero {s t : State} {w : Word} (h : hostWrite .cmd w s = .next t)
    (hc : t.status.code ≠ 0) : ∃ k, Raises s w k := by
  cases hd : decode w with
  | error e => exact ⟨.illegalCommand, e, hd⟩
  | ok i =>
    refine (exec_endsOk_or_raises hd s).resolve_left fun ⟨u, hu, h0⟩ => ?_
    rw [hostWrite_cmd_of_decode hd, hu] at h
    cases h
    exact hc h0

/-- Settles O28: a cause gives its exception and nothing else, and a command without a cause leaves CODE 0. -/
theorem failingCommandChangesStatusAlone : Obligations.FailingCommandChangesStatusAlone := by
  refine ⟨fun s w k h => hostWrite_cmd_of_raises h, fun s t w h hc => ?_, rfl, rfl, rfl, rfl, rfl⟩
  obtain ⟨k, hk⟩ := exists_raises_of_code_ne_zero h hc
  cases h.symm.trans (hostWrite_cmd_of_raises hk)
  exact ⟨k, hk, rfl⟩

end Sys2Proof.Machine

namespace Sys2Proof.Machine

/-! Reset clears the registers and leaves the pixel store alone (R200, R202). -/

@[simp] theorem hostOp_reset (s : State) : hostOp .reset s = .next (hostReset s) := rfl

theorem hostReset_bits_getElem (s : State) : ∀ (k : Nat) (h : k < 8), (hostReset s).bits[k] = 0 := by
  have zeroes : ∀ (k : Nat) (h : k < 8), (#v[0, 0, 0, 0, 0, 0, 0, 0] : BitSeq)[k] = 0 := by decide
  exact zeroes

/-- STATUS reads 0 when CODE is 0 and STK is clear (R23). -/
theorem statusWord_ok : statusWord ⟨0, false⟩ = 0 := by decide

@[simp] theorem readReg_hostReset (r : Reg) (s : State) : readReg r (hostReset s) = 0 := by
  cases r with
  | status => exact statusWord_ok
  | _ => rfl

@[simp] theorem buffer_hostReset (s : State) (b : Buf) : buffer (hostReset s) b = buffer s b := by cases b <;> rfl

@[simp] theorem width_hostReset (s : State) (b : Buf) : width (hostReset s) b = 0 := by cases b <;> rfl

@[simp] theorem byteAt_hostReset (s : State) (b : Buf) (x y : Coord) (c : Chan) :
    byteAt (hostReset s) b x y c = byteAt s b x y c := byteAt_congr b (buffer_hostReset s b) x y c

/-- An image of width 0 has no coordinate, in particular not (0, 0) (R45). -/
theorem not_inBounds_of_width_eq_zero {s : State} {b : Buf} (h : width s b = 0) (x y : Int) : ¬ inBounds s b x y := by
  have hw : (width s b).toNat = 0 := by rw [h]; rfl
  unfold inBounds
  omega

/-- The state at power-up is one that reset keeps: its registers are those that reset leaves (R37). -/
theorem hostReset_reset : hostReset State.reset = State.reset := rfl

/-- At power-up no byte is written, and each reads as PIX_INIT (R37). -/
theorem byteAt_reset (b : Buf) (x y : Coord) (c : Chan) :
    byteAt State.reset b x y c = chanOf (Config.pixInit b x y) c := by cases b <;> rfl

/-- Settles O9: the state after reset is `hostReset s`, whose registers are 0, whose store is that of `s` and whose images are
empty; the state at power-up is a state after reset. -/
theorem resetZeroesEveryRegister : Obligations.ResetZeroesEveryRegister := by
  refine ⟨fun s => ⟨hostReset s, hostOp_reset s, rfl, rfl, rfl, rfl, rfl, rfl, rfl, rfl, rfl, hostReset_bits_getElem s,
    rfl, rfl, rfl, rfl, fun r => readReg_hostReset r s, byteAt_hostReset s, fun b => ?_⟩, fun r => ?_, rfl, byteAt_reset⟩
  · exact not_inBounds_of_width_eq_zero (width_hostReset s b)
  · rw [← hostReset_reset, readReg_hostReset]

end Sys2Proof.Machine

namespace Sys2Proof.Machine

/-- Settles O2: no command has two words, and a command's word decodes to it. -/
theorem decodesExactlyItsOwnWord : Obligations.DecodesExactlyItsOwnWord :=
  fun w i _ => decode_eq_ok_iff_eq_encode w i

end Sys2Proof.Machine

namespace Sys2Proof.Machine

/-! The invariant of the machine (R24, R25, R29, R53), part by part and update by update. -/

theorem statusInv_of_ok {t : State} {stk : Bool} (h : t.status = ⟨0, stk⟩) : StatusInv t := by
  simp [StatusInv, h]

theorem statusInv_of_kind {t : State} {k : Kind} (h : t.status = ⟨k.code, true⟩) : StatusInv t := by
  refine ⟨?_, fun _ => by rw [h]⟩
  rw [h]
  cases k <;> decide

/-- The numbers and the order of the draws depend only on the buffers' draws and the counter. -/
theorem drawInv_of_fill_eq {s t : State} (hf : ∀ b, (buffer t b).fill = (buffer s b).fill)
    (hr : t.redraws = s.redraws) (h : DrawInv s) : DrawInv t := by
  obtain ⟨taken, apart⟩ := h
  refine ⟨fun b n hn => hr ▸ taken b n (hf b ▸ hn), fun n h0 h1 => apart n ?_ ?_⟩
  · exact (hf .img0).symm.trans h0
  · exact (hf .img1).symm.trans h1

/-- The next draw is held by no buffer. -/
theorem DrawInv.fill_ne_next {s : State} (h : DrawInv s) (b : Buf) : (buffer s b).fill ≠ .redraw s.redraws :=
  fun hb => Nat.lt_irrefl _ (h.1 b _ hb)

/-- Taking the next draw keeps the draws in order, since no buffer holds it yet (R53). -/
theorem drawInv_redrawBuffer (a : Buf) {s : State} (h : DrawInv s) : DrawInv (redrawBuffer a s) := by
  have fresh := h.fill_ne_next
  refine ⟨fun b n hn => ?_, ?_⟩
  · rw [redrawBuffer_redraws]
    rw [buffer_redrawBuffer] at hn
    by_cases hb : b = a
    · rw [if_pos hb] at hn
      cases hn
      exact Nat.lt_succ_self _
    · rw [if_neg hb] at hn
      exact Nat.lt_succ_of_lt (h.1 b n hn)
  · cases a with
    | img0 =>
      intro n h0 h1
      cases h0
      exact fresh .img1 h1
    | img1 =>
      intro n h0 h1
      cases h1
      exact fresh .img0 h0

theorem storeInv_iff (s : State) : StoreInv s ↔ ∀ b, (buffer s b).cells.wf :=
  ⟨fun ⟨h0, h1⟩ b => by cases b <;> assumption, fun h => ⟨h .img0, h .img1⟩⟩

/-- Writing well-formed cells keeps the invariant. -/
theorem Inv.writeCells {s : State} (h : Inv s) (b : Buf) {m : Memory} (hm : m.wf) : Inv (writeCells b m s) where
  status := by simpa [StatusInv] using h.status
  results := by simpa [ResultInv] using h.results
  store := (storeInv_iff _).mpr fun a => wf_writeCells hm ((storeInv_iff s).mp h.store a)
  draws := drawInv_of_fill_eq (fill_writeCells b m s) (writeCells_redraws b m s) h.draws

/-- A dimension write's draw keeps the invariant. -/
theorem Inv.redrawBuffer {s : State} (h : Inv s) (b : Buf) : Inv (redrawBuffer b s) where
  status := by simpa [StatusInv] using h.status
  results := by simpa [ResultInv] using h.results
  store := (storeInv_iff _).mpr fun a => wf_redrawBuffer ((storeInv_iff s).mp h.store a)
  draws := drawInv_redrawBuffer b h.draws

/-- A value of at most eight bits leaves bits 31:8 of its result register 0 (R29). -/
theorem toNat_setWidth_lt_256 {n : Nat} (v : BitVec n) (hn : n ≤ 8) : (v.setWidth 32).toNat < 256 :=
  calc (v.setWidth 32).toNat ≤ v.toNat := (BitVec.toNat_setWidth 32 v).trans_le (Nat.mod_le _ _)
    _ < 2 ^ n := v.isLt
    _ ≤ 2 ^ 8 := Nat.pow_le_pow_right (by decide) hn

/-- Whatever the pseudocode of a command writes keeps the invariant. -/
theorem Inv.wrote {s u : State} (h : Inv s) (hw : Wrote s u) : Inv u := by
  cases hw with
  | bits v => exact ⟨h.status, h.results, h.store, h.draws⟩
  | res0 v hn =>
    obtain ⟨-, h1, h2⟩ := h.results
    exact ⟨h.status, ⟨toNat_setWidth_lt_256 v hn, h1, h2⟩, h.store, h.draws⟩
  | res p =>
    have below (v : Byte) := toNat_setWidth_lt_256 v le_rfl
    exact ⟨h.status, ⟨below p.r, below p.g, below p.bl⟩, h.store, h.draws⟩
  | pixel b x y p => exact h.writeCells b (wf_pixelCells x y p)
  | image b f => exact h.writeCells b (wf_imageCells _ _ f)

theorem Inv.complete {s : State} (h : Inv s) : Inv (complete s) :=
  ⟨statusInv_of_ok (complete_status s), h.results, h.store, h.draws⟩

theorem Inv.raise {s : State} (h : Inv s) (k : Kind) : Inv (raise k s) :=
  ⟨statusInv_of_kind (raise_status k s), h.results, h.store, h.draws⟩

theorem Inv.exec {s t : State} (h : Inv s) {i : Instr} (hx : exec i s = .next t) : Inv t := by
  rcases exec_cases hx with ⟨u, hw, rfl⟩ | ⟨k, -, rfl⟩
  · exact (h.wrote hw).complete
  · exact h.raise k

theorem Inv.issue {s t : State} (h : Inv s) {w : Word} (hx : issue w s = .next t) : Inv t := by
  rcases issue_cases w s with ⟨i, -, hi⟩ | ⟨e, -, he⟩
  · exact h.exec (hi ▸ hx)
  · cases he.symm.trans hx
    exact h.raise .illegalCommand

/-- Every register write keeps the invariant: it is a command issue, writes a register that the invariant does not speak of,
draws a buffer anew, or is ignored (R155). -/
theorem Inv.hostWrite {s t : State} (h : Inv s) {r : Reg} {w : Word} (hx : hostWrite r w s = .next t) : Inv t := by
  cases r with
  | cmd => exact h.issue hx
  | w0 | h0 | w1 | h1 =>
    cases hx
    refine Inv.redrawBuffer ?_ _
    exact ⟨h.status, h.results, h.store, h.draws⟩
  | _ =>
    cases hx
    exact ⟨h.status, h.results, h.store, h.draws⟩

/-- Reset makes the registers meet the invariant and keeps the store and the draws (R200, R202). -/
theorem inv_hostReset {s : State} (hs : StoreInv s) (hd : DrawInv s) : Inv (hostReset s) :=
  have zero : (0 : Word).toNat < 256 := by decide
  ⟨statusInv_of_ok (stk := false) rfl, ⟨zero, zero, zero⟩, hs, hd⟩

theorem Inv.hostOp {s t : State} (h : Inv s) {op : HostOp} (hx : hostOp op s = .next t) : Inv t := by
  cases op with
  | read off width =>
    obtain ⟨r, -, rfl⟩ := hostOp_read_cases hx
    exact ⟨h.status, h.results, h.store, h.draws⟩
  | write off width w =>
    obtain ⟨r, -, hw⟩ := hostOp_write_cases hx
    exact h.hostWrite hw
  | reset =>
    cases hx
    exact inv_hostReset h.store h.draws

/-- Settles O42: a step performs HOST's next operation, and every operation keeps the invariant. -/
theorem stepKeepsTheInvariant : Obligations.StepKeepsTheInvariant := by
  intro s t h hx
  cases hp : s.pending with
  | nil =>
    cases (step_nil hp).symm.trans hx
    exact h
  | cons op rest =>
    have popped : Inv { s with pending := rest } := ⟨h.status, h.results, h.store, h.draws⟩
    exact popped.hostOp ((step_cons hp).symm.trans hx)

/-- Settles O43: the state at power-up is one after reset, with no byte written and no draw taken. -/
theorem resetStateMeetsTheInvariant : Obligations.ResetStateMeetsTheInvariant := by
  have fill (b : Buf) : (buffer State.reset b).fill = .init := by cases b <;> rfl
  have noDraw (b : Buf) (n : Nat) : (buffer State.reset b).fill ≠ .redraw n := by simp [fill b]
  have store : StoreInv State.reset := ⟨by decide, by decide⟩
  have draws : DrawInv State.reset := ⟨fun b n h => absurd h (noDraw b n), fun n h => absurd h (noDraw .img0 n)⟩
  have inv := inv_hostReset store draws
  rwa [hostReset_reset] at inv

end Sys2Proof.Machine

namespace Sys2Proof.Machine

/-! The pure functions: further forms and round trips (R90 to R94, R102). -/

theorem last3BitsValue_eq_and (n : Byte) : (last3BitsValue n).setWidth 8 = n &&& 0x07#8 := by
  have low : (n &&& 0x07#8).toNat = n.toNat % 8 := Nat.and_two_pow_sub_one_eq_mod n.toNat 3
  apply BitVec.eq_of_toNat_eq
  rw [low, BitVec.toNat_setWidth, last3BitsValue_toNat]
  omega

theorem top3Bits_eq_shift (n : Byte) : (top3Bits n).setWidth 8 = n >>> 5 := by
  have high : (n >>> 5).toNat = n.toNat / 32 := Nat.shiftRight_eq_div_pow n.toNat 5
  apply BitVec.eq_of_toNat_eq
  rw [high, BitVec.toNat_setWidth, top3Bits_toNat]
  omega

/-- The re-expanded value has the bits of v above the constant 1, 0, 0, 0, 0 (R94). -/
theorem expandTop3_eq_fromBits : ∀ v : Uint3, expandTop3 v =
    fromBits #v[v.extractLsb' 2 1, v.extractLsb' 1 1, v.extractLsb' 0 1, 1, 0, 0, 0, 0] := by decide

/-- A recomposed sequence decomposes to itself (R102). -/
@[simp] theorem toBits_fromBits (q : BitSeq) : toBits (fromBits q) = q := by
  refine Vector.ext fun k hk => ?_
  rw [toBits_getElem]
  apply BitVec.eq_of_toNat_eq
  rw [bitOf_toNat, fromBits_toNat]
  interval_cases k <;> omega

@[simp] theorem top3Bits_expandTop3 (v : Uint3) : top3Bits (expandTop3 v) = v := by
  apply BitVec.eq_of_toNat_eq
  rw [top3Bits_toNat, expandTop3_toNat]
  omega

/-- Settles O35: each function's defining sum is its closed form. -/
theorem bitFunctionsHaveTheirFormulas : Obligations.BitFunctionsHaveTheirFormulas := by
  refine ⟨fun n k h => ?_, fromBits_toNat, fun n => ⟨?_, last3BitsValue_toNat n, last3BitsValue_eq_and n⟩,
    fun n => ⟨?_, top3Bits_toNat n, top3Bits_eq_shift n⟩, fun v => ⟨?_, expandTop3_toNat v, expandTop3_eq_fromBits v⟩⟩
  · rw [toBits_getElem, bitOf_toNat]
  · simp only [last3BitsValue_toNat, toBits_getElem, bitOf_toNat]
    omega
  · simp only [top3Bits_toNat, toBits_getElem, bitOf_toNat]
    omega
  · rw [expandTop3_toNat]
    omega

/-- Settles O36: the round trips hold on numbers. -/
theorem bitOpsRoundTrips : Obligations.BitOpsRoundTrips := by
  refine ⟨last3BitsValue_toNat, fromBits_toBits, fun v => ⟨top3Bits_expandTop3 v, ?_, ?_⟩, toBits_fromBits,
    fun n => ?_, fun n => ?_⟩
  · rw [expandTop3_toNat]
    omega
  · rw [expandTop3_toNat]
    omega
  · rw [top3Bits_toNat]
    omega
  · rw [last3BitsValue_toNat]
    omega

/-! One channel of the embedding (R110, R114). -/

/-- The bits of the merged byte (R110). -/
theorem toBits_mergeChannel (c h : Byte) : toBits (mergeChannel c h) =
    #v[(toBits c)[0], (toBits c)[1], (toBits c)[2], (toBits c)[3], (toBits c)[4],
      (toBits h)[0], (toBits h)[1], (toBits h)[2]] := toBits_fromBits _

/-- Settles O37: the merged byte recomposes five bits of the cover and three of the hidden value. -/
theorem mergeChannelHasItsForms : Obligations.MergeChannelHasItsForms := by
  intro c h
  refine ⟨fun k hk => ?_, fun k hk => ?_, mergeChannel_eq_or c h, ?_⟩
  · rw [toBits_mergeChannel]
    interval_cases k <;> rfl
  · rw [toBits_mergeChannel]
    interval_cases k <;> rfl
  · rw [mergeChannel_toNat, top3Bits_toNat]

/-- The payload of the merged byte is the hidden value's three high bits (R114 (b)). -/
@[simp] theorem last3BitsValue_mergeChannel (c h : Byte) : last3BitsValue (mergeChannel c h) = top3Bits h := by
  apply BitVec.eq_of_toNat_eq
  rw [last3BitsValue_toNat, mergeChannel_toNat, top3Bits_toNat]
  omega

/-- The cover's five high bits are kept (R114 (a)). -/
theorem mergeChannel_toNat_div_eight (c h : Byte) : (mergeChannel c h).toNat / 8 = c.toNat / 8 := by
  rw [mergeChannel_toNat]
  omega

/-- The merged byte depends on the cover's five and the hidden value's three high bits only (R114 (g)). -/
theorem mergeChannel_congr {c c' h h' : Byte} (hc : c.toNat / 8 = c'.toNat / 8) (hh : h.toNat / 32 = h'.toNat / 32) :
    mergeChannel c' h' = mergeChannel c h :=
  BitVec.eq_of_toNat_eq (by rw [mergeChannel_toNat, mergeChannel_toNat, hc, hh])

/-- Merging again with the same hidden value changes nothing (R114 (f)). -/
@[simp] theorem mergeChannel_mergeChannel (c h : Byte) : mergeChannel (mergeChannel c h) h = mergeChannel c h :=
  mergeChannel_congr (mergeChannel_toNat_div_eight c h).symm rfl

/-- A hidden value without high bits clears the payload (R114 (c)). -/
theorem mergeChannel_of_lt {c h : Byte} (hh : h.toNat < 32) : mergeChannel c h = c &&& 0xF8#8 := by
  have noPayload : h.toNat >>> 5 = 0 := by rw [Nat.shiftRight_eq_div_pow]; omega
  apply BitVec.eq_of_toNat_eq
  rw [mergeChannel_toNat_eq_or, noPayload, Nat.or_zero]
  rfl

/-- The merged byte is within 7 of the cover (R114 (e)). -/
theorem abs_mergeChannel_sub_le (c h : Byte) : |((mergeChannel c h).toNat : Int) - (c.toNat : Int)| ≤ 7 := by
  rw [mergeChannel_toNat, abs_le]
  omega

/-- Settles O38: the merged byte's number is that of its five kept and three carried bits. -/
theorem embeddingKeepsTheCoverAndCarriesThePayload : Obligations.EmbeddingKeepsTheCoverAndCarriesThePayload := by
  refine ⟨fun c h => ⟨mergeChannel_toNat_div_eight c h, last3BitsValue_mergeChannel c h, mergeChannel_of_lt,
    abs_mergeChannel_sub_le c h, mergeChannel_mergeChannel c h, fun c' h' => mergeChannel_congr⟩, by decide,
    fun cover hidden x y c => ?_⟩
  rw [chanOf_embedImage, mergeChannel_toNat_div_eight]

end Sys2Proof.Machine

namespace Sys2Proof.Machine

/-! Sequences of image commands (R114, R129, R131). -/

/-- Revealing a merged byte shows the hidden value's three high bits, whatever the cover was (R129). -/
theorem revealChannel_mergeChannel (c h : Byte) : revealChannel (mergeChannel c h) = expandTop3 (top3Bits h) := by
  rw [revealChannel, last3BitsValue_mergeChannel]

theorem expandTop3_top3Bits_toNat (h : Byte) : (expandTop3 (top3Bits h)).toNat = 16 + 32 * (h.toNat / 32) := by
  rw [expandTop3_toNat, top3Bits_toNat]

/-- The re-expanded value stands in the middle of the hidden value's block of 32 (R129). -/
theorem abs_expandTop3_top3Bits_sub_le (h : Byte) :
    |((expandTop3 (top3Bits h)).toNat : Int) - (h.toNat : Int)| ≤ 16 := by
  rw [expandTop3_top3Bits_toNat, abs_le]
  omega

/-- After EMBED and REVEAL of IMG0 a byte of the image shows the hidden byte. -/
theorem byteAt_revealed_embedded {s : State} {x y : Coord} (h : InImage s .img0 x y) (c : Chan) :
    byteAt (revealed .img0 (embedded s)) .img0 x y c = expandTop3 (top3Bits (byteAt s .img1 x y c)) := by
  have hin : InImage (embedded s) .img0 x y := h
  rw [byteAt_revealed, if_pos ⟨rfl, hin⟩, byteAt_embedded_of_inImage h, revealChannel_mergeChannel]

/-- Settles O39: the reveal of each merged byte shows the hidden byte's top three bits. -/
theorem revealAfterEmbedShowsTheHiddenImage : Obligations.RevealAfterEmbedShowsTheHiddenImage := by
  refine ⟨fun s hd => ⟨_, _, exec_embed_of_eq hd, exec_reveal .img0 _, fun x y c h => ?_⟩, by decide⟩
  rw [byteAt_revealed_embedded h]
  exact ⟨rfl, expandTop3_top3Bits_toNat _, abs_expandTop3_top3Bits_sub_le _⟩

/-- A second EMBED merges the same hidden byte into each byte again (R114 (f)). -/
theorem byteAt_embedded_embedded (s : State) (b : Buf) (x y : Coord) (c : Chan) :
    byteAt (embedded (embedded s)) b x y c = byteAt (embedded s) b x y c := by
  cases b with
  | img0 =>
    by_cases h : InImage s .img0 x y
    · have hin : InImage (embedded s) .img0 x y := h
      rw [byteAt_embedded_of_inImage hin, byteAt_embedded_img1, byteAt_embedded_of_inImage h,
        mergeChannel_mergeChannel]
    · have hout : ¬ InImage (embedded s) .img0 x y := h
      rw [byteAt_embedded_of_not_inImage hout]
  | img1 => rw [byteAt_embedded_img1]

/-- Settles O40: EMBED keeps the dimensions equal, and merging is idempotent. -/
theorem secondEmbedChangesNoByte : Obligations.SecondEmbedChangesNoByte := by
  intro s hd
  have still : (embedded s).w0 = (embedded s).w1 ∧ (embedded s).h0 = (embedded s).h1 := hd
  exact ⟨_, _, exec_embed_of_eq hd, exec_embed_of_eq still, byteAt_embedded_embedded s⟩

/-- The three low bits of a revealed value are 0, so a second reveal shows the constant alone (R131, R132). -/
theorem revealChannel_revealChannel (n : Byte) : revealChannel (revealChannel n) = 16 := by
  apply BitVec.eq_of_toNat_eq
  have noPayload : (16 + 32 * (n.toNat % 8)) % 8 = 0 := by omega
  rw [revealChannel_toNat, revealChannel_toNat, noPayload]
  rfl

/-- Settles O41: each byte of the image is revealed twice. -/
theorem secondRevealLeavesSixteen : Obligations.SecondRevealLeavesSixteen := by
  refine ⟨revealChannel_revealChannel, by decide, fun s b => ⟨_, _, exec_reveal b s, exec_reveal b _, fun x y c h => ?_⟩⟩
  have hin : InImage (revealed b s) b x y := by simpa [InImage, revealed] using h
  rw [byteAt_revealed, if_pos ⟨rfl, hin⟩, byteAt_revealed, if_pos ⟨rfl, h⟩, revealChannel_revealChannel]

end Sys2Proof.Machine

namespace Sys2Proof.Machine

/-! Sequences of pixel commands (R49, R52, R143). -/

/-- A byte's word is the operand that the byte was read from. -/
theorem setWidth_of_toNat_eq {n : Byte} {w : Word} (h : n.toNat = w.toNat) : n.setWidth 32 = w := by
  rw [← BitVec.ofNat_toNat, h, BitVec.ofNat_toNat, BitVec.setWidth_eq]

/-- The written pixel is read back whole. -/
theorem readPixel_complete_writePixel (b : Buf) (x y : Coord) (p : Pixel) (s : State) :
    readPixel (complete (writePixel b x y p s)) b x y = p := by
  have same := byteAt_complete_writePixel_same b x y p s
  rw [readPixel, same, same, same]
  rfl

/-- Settles O25: SETPIXEL leaves the operands and the dimensions, so GETPIXEL reads the pixel that it wrote. -/
theorem getpixelAfterSetpixelReturnsTheComponents : Obligations.GetpixelAfterSetpixelReturnsTheComponents := by
  intro s b hin h0 h1 h2
  obtain ⟨x, y, hn, hxy⟩ := exists_argsName_inImage hin
  obtain ⟨p, hp, er, eg, ebl⟩ := components_of_holdsChannel h0 h1 h2
  have hn' : ArgsName (complete (writePixel b x y p s)) x y := by simpa [ArgsName] using hn
  have hxy' : InImage (complete (writePixel b x y p s)) b x y := by simpa [InImage] using hxy
  refine ⟨_, _, exec_setpixel_of_components hn hxy hp, exec_getpixel_of_argsName hn' hxy', ?_⟩
  rw [readPixel_complete_writePixel]
  exact ⟨setWidth_of_toNat_eq er, setWidth_of_toNat_eq eg, setWidth_of_toNat_eq ebl, by simp⟩

/-- Settles O26: GETPIXEL leaves its own operands, the dimensions and the store, so it meets the same case again. -/
theorem getpixelIsIdempotent : Obligations.GetpixelIsIdempotent := by
  intro s b
  by_cases hin : ArgsInBounds s b
  · obtain ⟨x, y, hn, hxy⟩ := exists_argsName_inImage hin
    refine ⟨_, exec_getpixel_of_argsName hn hxy, ?_⟩
    have hn' : ArgsName (complete (writeRes (readPixel s b x y) s)) x y := hn
    have hxy' : InImage (complete (writeRes (readPixel s b x y) s)) b x y := by simpa [InImage] using hxy
    have same : readPixel (complete (writeRes (readPixel s b x y) s)) b x y = readPixel s b x y := by simp [readPixel]
    rw [exec_getpixel_of_argsName hn' hxy', same]
    rfl
  · have hin' : ¬ ArgsInBounds { s with status := ⟨1, true⟩ } b := by cases b <;> exact hin
    exact ⟨_, exec_of_not_argsInBounds (execBody_getpixel b s) hin,
      exec_of_not_argsInBounds (execBody_getpixel b _) hin'⟩

theorem holdsChannel_of_eq_byte {w : Word} {n : Byte} (h : w.toNat = n.toNat) : HoldsChannel w :=
  (holdsChannel_iff w).mpr (h ▸ n.isLt)

/-- Settles O27: the components are the bytes that the pixel holds. -/
theorem setpixelOfTheHeldValueChangesNoByte : Obligations.SetpixelOfTheHeldValueChangesNoByte := by
  intro s b x y hn hxy h0 h1 h2
  obtain ⟨p, hp, er, eg, ebl⟩ := components_of_holdsChannel (holdsChannel_of_eq_byte h0) (holdsChannel_of_eq_byte h1)
    (holdsChannel_of_eq_byte h2)
  have held (c : Chan) : chanOf p c = byteAt s b x y c := by
    cases c with
    | red => exact BitVec.eq_of_toNat_eq (er.trans h0)
    | green => exact BitVec.eq_of_toNat_eq (eg.trans h1)
    | blue => exact BitVec.eq_of_toNat_eq (ebl.trans h2)
  refine ⟨_, exec_setpixel_of_components hn hxy hp, by simp, fun a x' y' c => ?_⟩
  by_cases same : a = b ∧ x' = x ∧ y' = y
  · obtain ⟨rfl, rfl, rfl⟩ := same
    rw [byteAt_complete_writePixel_same, held]
  · exact byteAt_complete_writePixel_other same p s c

end Sys2Proof.Machine

namespace Sys2Proof.Machine

/-! The causes of each code (R176). -/

theorem Kind.code_injective {k k' : Kind} (h : k.code = k'.code) : k = k' := by
  revert h
  cases k <;> cases k' <;> decide

/-- A command leaves a kind's code exactly when its word has the kind's cause. -/
theorem exec_code_eq_iff {i : Instr} {s t : State} (h : exec i s = .next t) (k : Kind) :
    t.status.code = k.code ↔ Raises s (encode i) k := by
  have hw : hostWrite .cmd (encode i) s = .next t := (hostWrite_cmd_of_decode (decode_encode i) s).trans h
  have code_of {k' : Kind} (hr : Raises s (encode i) k') : t.status.code = k'.code := by
    cases hw.symm.trans (hostWrite_cmd_of_raises hr)
    rfl
  refine ⟨fun hc => ?_, code_of⟩
  obtain ⟨k', hr⟩ := exists_raises_of_code_ne_zero hw (hc ▸ k.code_ne_zero)
  rwa [Kind.code_injective (hc.symm.trans (code_of hr))]

/-- No command leaves a code above 5. -/
theorem exec_code_toNat_le {i : Instr} {s t : State} (h : exec i s = .next t) : t.status.code.toNat ≤ 5 := by
  rcases exec_status_cases h with ht | ⟨k, ht⟩
  · exact (statusInv_of_ok ht).1
  · exact (statusInv_of_kind ht).1

/-- Settles O29: the causes of the kinds, read for a command's own word, which decodes to that command alone. -/
theorem eachKindHasExactlyItsCauses : Obligations.EachKindHasExactlyItsCauses := by
  refine ⟨fun s w e he => hostWrite_cmd_of_illegal ⟨e, he⟩ s, fun s t i h => ?_⟩
  have cause := exec_code_eq_iff h
  refine ⟨(cause .outOfBounds).trans ?_, (cause .invalidChannelValue).trans ?_, (cause .dimensionMismatch).trans ?_,
    mt (cause .illegalCommand).mp ?_, (cause .invalidOperand).trans ?_, exec_code_toNat_le h⟩
  all_goals simp [Raises]

end Sys2Proof.Machine

namespace Sys2Proof.Machine

/-! What a command is to write, computed before anything is written: it depends on the state that the command reads, and it
can be written to any state. -/

/-- The effect of a command's pseudocode: BITS, RES0 with a value of at most eight bits, the three result registers, a pixel
or an image. -/
inductive Effect where
  | bits (v : BitSeq)
  | res0 {n : Nat} (v : BitVec n) (hn : n ≤ 8)
  | res (p : Pixel)
  | pixel (b : Buf) (x y : Coord) (p : Pixel)
  | image (b : Buf) (f : Image)

/-- Writes the effect to a state. -/
def Effect.apply (e : Effect) (s : State) : State :=
  match e with
  | .bits v => writeBits v s
  | .res0 v _ => writeRes0 v s
  | .res p => writeRes p s
  | .pixel b x y p => writePixel b x y p s
  | .image b f => writeImage b f s

/-- The effect of a command, or the kind that it raises. -/
def effectOf (i : Instr) (s : State) : Except Kind Effect :=
  match i with
  | .tobits => (channel s.arg0).map fun n => .bits (toBits n)
  | .frombits => .ok (.res0 (fromBits s.bits) (by decide))
  | .last3 => (channel s.arg0).map fun n => .res0 (last3BitsValue n) (by decide)
  | .top3 => (channel s.arg0).map fun n => .res0 (top3Bits n) (by decide)
  | .expand3 => ((channel s.arg0).bind threeBits).map fun v => .res0 (expandTop3 v) (by decide)
  | .merge => (channel s.arg0).bind fun c => (channel s.arg1).map fun h => .res0 (mergeChannel c h) (by decide)
  | .revealch => (channel s.arg0).map fun n => .res0 (revealChannel n) (by decide)
  | .embed => (sameDimensions s).map fun _ => .image .img0 (embedImage (imageOf s .img0) (imageOf s .img1))
  | .reveal b => .ok (.image b (revealImage (imageOf s b)))
  | .getpixel b => (pixelAddress b s).map fun a => .res (readPixel s b a.1 a.2)
  | .setpixel b => (pixelAddress b s).bind fun a => (components s).map fun p => .pixel b a.1 a.2 p

/-- The pseudocode of a command writes its effect to the state that it read. -/
theorem execBody_eq_map_effectOf (i : Instr) (s : State) :
    execBody i s = (effectOf i s).map fun e => e.apply s := by
  cases i with
  | tobits | last3 | top3 | revealch => simp only [execBody, effectOf]; cases channel s.arg0 <;> rfl
  | expand3 => simp only [execBody, effectOf]; cases (channel s.arg0).bind threeBits <;> rfl
  | merge => simp only [execBody, effectOf]; cases channel s.arg0 <;> cases channel s.arg1 <;> rfl
  | embed => simp only [execBody, effectOf]; cases sameDimensions s <;> rfl
  | getpixel b => simp only [execBody, effectOf]; cases pixelAddress b s <;> rfl
  | setpixel b => simp only [execBody, effectOf]; cases pixelAddress b s <;> cases components s <;> rfl
  | frombits | reveal => rfl

theorem exec_of_effectOf_ok {i : Instr} {s : State} {e : Effect} (h : effectOf i s = .ok e) :
    exec i s = .next (complete (e.apply s)) := by
  rw [exec_eq_finish, execBody_eq_map_effectOf, h]
  rfl

theorem exec_of_effectOf_error {i : Instr} {s : State} {k : Kind} (h : effectOf i s = .error k) :
    exec i s = .next (raise k s) := by
  rw [exec_eq_finish, execBody_eq_map_effectOf, h]
  rfl

/-- A command completes with its effect written, or takes the exception of the kind that it raises. -/
theorem exec_effect_cases {i : Instr} {s t : State} (h : exec i s = .next t) :
    (∃ e, effectOf i s = .ok e ∧ t = complete (e.apply s)) ∨ ∃ k, effectOf i s = .error k ∧ t = raise k s := by
  cases he : effectOf i s with
  | ok e =>
    cases (exec_of_effectOf_ok he).symm.trans h
    exact .inl ⟨e, rfl, rfl⟩
  | error k =>
    cases (exec_of_effectOf_error he).symm.trans h
    exact .inr ⟨k, rfl, rfl⟩

/-! No command's effect depends on STATUS, on the result registers or on the model's queue (R26, R35). -/

theorem effectOf_congr (i : Instr) (s : State) (st : Status) (r0 r1 r2 : Word) (p : List HostOp) :
    effectOf i { s with status := st, res0 := r0, res1 := r1, res2 := r2, pending := p } = effectOf i s := by
  cases i with
  | reveal b | getpixel b | setpixel b => cases b <;> rfl
  | _ => rfl

/-- Settles O31: both runs raise the same kind, or write the same effect. -/
theorem outcomeIgnoresStatusAndResults : Obligations.OutcomeIgnoresStatusAndResults := by
  intro s t i st r0 r1 r2 h
  have same := effectOf_congr i s st r0 r1 r2 s.pending
  rcases exec_effect_cases h with ⟨e, he, rfl⟩ | ⟨k, hk, rfl⟩
  · refine ⟨_, exec_of_effectOf_ok (same.trans he), rfl, ?_⟩
    cases e with
    | bits v => exact ⟨rfl, rfl, rfl, rfl, .inr ⟨rfl, rfl⟩, .inr ⟨rfl, rfl⟩, .inr ⟨rfl, rfl⟩⟩
    | res0 v hn => exact ⟨rfl, rfl, rfl, rfl, .inl rfl, .inr ⟨rfl, rfl⟩, .inr ⟨rfl, rfl⟩⟩
    | res p => exact ⟨rfl, rfl, rfl, rfl, .inl rfl, .inl rfl, .inl rfl⟩
    | pixel b x y p | image b f =>
      cases b <;> exact ⟨rfl, rfl, rfl, rfl, .inr ⟨rfl, rfl⟩, .inr ⟨rfl, rfl⟩, .inr ⟨rfl, rfl⟩⟩
  · refine ⟨_, exec_of_effectOf_error (same.trans hk), rfl, ?_, rfl, rfl, rfl, .inr ⟨rfl, rfl⟩, .inr ⟨rfl, rfl⟩,
      .inr ⟨rfl, rfl⟩⟩
    exact (if_neg k.code_ne_zero).symm

/-! What every command leaves unchanged (R27, R28, R32). -/

theorem Wrote.frame {s u : State} (h : Wrote s u) : u = { s with
    res0 := u.res0, res1 := u.res1, res2 := u.res2, bits := u.bits, img0 := u.img0, img1 := u.img1 } := by
  cases h with
  | pixel b x y p | image b f => cases b <;> rfl
  | _ => rfl

/-- A command writes at most STATUS, the result registers, BITS and the pixel store. -/
theorem exec_frame {i : Instr} {s t : State} (h : exec i s = .next t) : t = { s with
    status := t.status, res0 := t.res0, res1 := t.res1, res2 := t.res2, bits := t.bits
    img0 := t.img0, img1 := t.img1 } := by
  rcases exec_cases h with ⟨u, hw, rfl⟩ | ⟨k, -, rfl⟩
  · rw [hw.frame]
    rfl
  · rfl

/-- Settles O32: the frame of a command, which always answers a next state. -/
theorem commandsLeaveOperandsAndDimensions : Obligations.CommandsLeaveOperandsAndDimensions := by
  intro s i
  obtain ⟨t, h⟩ := exec_isNext i s
  refine ⟨t, h, ?_⟩
  rw [exec_frame h]
  exact ⟨rfl, rfl, rfl, rfl, rfl, rfl, rfl, rfl, rfl, rfl, rfl, rfl⟩

/-! Which command has which effect. -/

/-- The commands that have an effect of this form, and where in the pixel store it is. -/
def Effect.IsOf (e : Effect) (i : Instr) (s : State) : Prop :=
  match e with
  | .bits _ => i = .tobits
  | .res0 _ _ => i ∈ [Instr.frombits, .last3, .top3, .expand3, .merge, .revealch]
  | .res _ => ∃ b, i = .getpixel b
  | .pixel b x y _ => i = .setpixel b ∧ ArgsName s x y ∧ InImage s b x y
  | .image b _ => (i = .embed ∧ b = .img0) ∨ i = .reveal b

/-- The effective address is the pixel of the image that the arguments name (R140). -/
theorem argsName_of_pixelAddress {s : State} {b : Buf} {a : Coord × Coord} (h : pixelAddress b s = .ok a) :
    ArgsName s a.1 a.2 ∧ InImage s b a.1 a.2 := by
  by_cases hin : ArgsInBounds s b
  · obtain ⟨x, y, hn, hxy⟩ := exists_argsName_inImage hin
    cases (pixelAddress_of_argsName hn hxy).symm.trans h
    exact ⟨hn, hxy⟩
  · cases (pixelAddress_of_outOfBounds (mt argsInBounds_iff.mpr hin)).symm.trans h

theorem exists_of_map_eq_ok {α β : Type} {x : Except Kind α} {f : α → β} {b : β} (h : x.map f = .ok b) :
    ∃ a, x = .ok a ∧ f a = b := by
  cases x with
  | ok a => exact ⟨a, rfl, by cases h; rfl⟩
  | error k => cases h

theorem exists_of_bind_eq_ok {α β : Type} {x : Except Kind α} {f : α → Except Kind β} {b : β} (h : x.bind f = .ok b) :
    ∃ a, x = .ok a ∧ f a = .ok b := by
  cases x with
  | ok a => exact ⟨a, rfl, h⟩
  | error k => cases h

theorem effectOf_isOf {i : Instr} {s : State} {e : Effect} (h : effectOf i s = .ok e) : e.IsOf i s := by
  cases i with
  | frombits =>
    cases h
    simp [Effect.IsOf]
  | reveal b =>
    cases h
    exact .inr rfl
  | tobits | last3 | top3 | expand3 | revealch | embed =>
    obtain ⟨-, -, rfl⟩ := exists_of_map_eq_ok h
    simp [Effect.IsOf]
  | merge =>
    obtain ⟨c, -, hc⟩ := exists_of_bind_eq_ok h
    obtain ⟨-, -, rfl⟩ := exists_of_map_eq_ok hc
    simp [Effect.IsOf]
  | getpixel b =>
    obtain ⟨a, -, rfl⟩ := exists_of_map_eq_ok h
    exact ⟨b, rfl⟩
  | setpixel b =>
    obtain ⟨a, ha, hc⟩ := exists_of_bind_eq_ok h
    obtain ⟨p, -, rfl⟩ := exists_of_map_eq_ok hc
    exact ⟨rfl, argsName_of_pixelAddress ha⟩

/-- Settles O33: the effect that changes the register belongs to a named command, and the value has at most eight bits. -/
theorem onlyTheNamedCommandsWriteResults : Obligations.OnlyTheNamedCommandsWriteResults := by
  intro s t i h
  have le255 {n : Nat} (v : BitVec n) (hn : n ≤ 8) : (v.setWidth 32).toNat ≤ 255 :=
    Nat.le_of_lt_succ (toNat_setWidth_lt_256 v hn)
  rcases exec_effect_cases h with ⟨e, he, rfl⟩ | ⟨k, -, rfl⟩
  · have hi := effectOf_isOf he
    cases e with
    | bits v => exact ⟨fun _ => ⟨hi, rfl⟩, fun c => absurd rfl c, fun c => absurd rfl c, fun c => absurd rfl c⟩
    | res0 v hn =>
      exact ⟨fun c => absurd rfl c, fun _ => ⟨rfl, le255 v hn, .inr hi⟩, fun c => absurd rfl c, fun c => absurd rfl c⟩
    | res p =>
      exact ⟨fun c => absurd rfl c, fun _ => ⟨rfl, le255 p.r le_rfl, .inl hi⟩, fun _ => ⟨rfl, le255 p.g le_rfl, hi⟩,
        fun _ => ⟨rfl, le255 p.bl le_rfl, hi⟩⟩
    | pixel b x y p | image b f => simp [Effect.apply]
  · simp

/-- Settles O34: only a pixel or an image that is written changes a byte, and it does so inside the image. -/
theorem onlyTheNamedCommandsChangePixels : Obligations.OnlyTheNamedCommandsChangePixels := by
  intro s t i b x y c h changed
  rcases exec_effect_cases h with ⟨e, he, rfl⟩ | ⟨k, -, rfl⟩
  · have hi := effectOf_isOf he
    rw [byteAt_complete] at changed
    cases e with
    | bits v => exact absurd (byteAt_writeBits v s b x y c) changed
    | res0 v hn => exact absurd (byteAt_writeRes0 v s b x y c) changed
    | res p => exact absurd (byteAt_writeRes p s b x y c) changed
    | pixel a x' y' p =>
      rw [Effect.apply, byteAt_writePixel] at changed
      obtain ⟨⟨rfl, rfl, rfl⟩, -⟩ := ite_ne_right_iff.mp changed
      obtain ⟨hset, hn, hin⟩ := hi
      exact ⟨hin, .inl ⟨hset, hn⟩⟩
    | image a f =>
      rw [Effect.apply, byteAt_writeImage] at changed
      obtain ⟨⟨rfl, hin⟩, -⟩ := ite_ne_right_iff.mp changed
      exact ⟨hin, .inr hi⟩
  · exact absurd (byteAt_raise k s b x y c) changed

end Sys2Proof.Machine

namespace Sys2Proof.Machine

/-! HOST's operations either answer a next state or are refused, by their form alone (R47). -/

theorem accessWellFormed_iff (off width : Nat) :
    accessWellFormed off width = true ↔ off % 4 = 0 ∧ off ≤ 0x3C ∧ width = 32 := by
  simp [accessWellFormed, and_assoc]

/-- An access that the interface does not have is refused. -/
theorem access_eq_error {off width : Nat} (h : ¬ accessWellFormed off width = true) :
    ∃ e, access off width = .error e := by
  cases ha : access off width with
  | ok r => exact absurd ((access_isOk_iff off width).mp ⟨r, ha⟩) h
  | error e => exact ⟨e, rfl⟩

theorem hostOp_isNext {op : HostOp} (h : op.wellFormed = true) (s : State) : ∃ t, hostOp op s = .next t := by
  cases op with
  | read off width =>
    obtain ⟨r, ha⟩ := (access_isOk_iff off width).mpr h
    exact ⟨_, by simp only [hostOp, ha]; rfl⟩
  | write off width w =>
    obtain ⟨r, ha⟩ := (access_isOk_iff off width).mpr h
    simp only [hostOp, ha]
    exact hostWrite_isNext r w s
  | reset => exact ⟨_, hostOp_reset s⟩

theorem hostOp_isRefused {op : HostOp} (h : ¬ op.wellFormed = true) (s : State) : ∃ e, hostOp op s = .refused e := by
  cases op with
  | read off width | write off width w =>
    obtain ⟨e, ha⟩ := access_eq_error h
    exact ⟨e, by simp only [hostOp, ha]⟩
  | reset => exact absurd rfl h

/-- The operations that the interface does not have are accesses (R47). -/
theorem not_wellFormed_iff (op : HostOp) : ¬ op.wellFormed = true ↔
    ∃ off width, (op = .read off width ∨ ∃ w, op = .write off width w) ∧
      ¬ (off % 4 = 0 ∧ off ≤ 0x3C ∧ width = 32) := by
  cases op with
  | read off width => simp [HostOp.wellFormed, accessWellFormed_iff]
  | write off width w => simp [HostOp.wellFormed, accessWellFormed_iff]
  | reset => simp [HostOp.wellFormed]

/-- A step answers a next state, or it is refused for an operation that the interface does not have. -/
theorem step_isNext_or_isRefused (s : State) : (∃ t, step s = .next t) ∨
    (∃ op rest, s.pending = op :: rest ∧ ¬ op.wellFormed = true) ∧ ∃ e, step s = .refused e := by
  cases hp : s.pending with
  | nil => exact .inl ⟨s, step_nil hp⟩
  | cons op rest =>
    rw [step_cons hp]
    by_cases hw : op.wellFormed = true
    · exact .inl (hostOp_isNext hw _)
    · exact .inr ⟨⟨op, rest, rfl, hw⟩, hostOp_isRefused hw _⟩

/-- A step is refused exactly for an operation that the interface does not have. -/
theorem step_isRefused_iff (s : State) : (∃ e, step s = .refused e) ↔
    ∃ op rest, s.pending = op :: rest ∧ ¬ op.wellFormed = true := by
  constructor
  · rintro ⟨e, he⟩
    rcases step_isNext_or_isRefused s with ⟨t, ht⟩ | ⟨foreign, -⟩
    · cases ht.symm.trans he
    · exact foreign
  · rintro ⟨op, rest, hp, hw⟩
    rw [step_cons hp]
    exact hostOp_isRefused hw _

/-- Settles O8: the form of the next operation decides between a next state and a refusal. -/
theorem onlyForeignAccessesAreRefused : Obligations.OnlyForeignAccessesAreRefused := by
  refine fun s => ⟨(step_isRefused_iff s).trans ⟨?_, ?_⟩, fun r h => nomatch r⟩
  · rintro ⟨op, rest, hp, hw⟩
    obtain ⟨off, width, rfl | ⟨w, rfl⟩, h⟩ := (not_wellFormed_iff op).mp hw
    · exact ⟨off, width, rest, .inl hp, h⟩
    · exact ⟨off, width, rest, .inr ⟨w, hp⟩, h⟩
  · rintro ⟨off, width, rest, hp | ⟨w, hp⟩, h⟩
    · exact ⟨_, rest, hp, (not_wellFormed_iff _).mpr ⟨off, width, .inl rfl, h⟩⟩
    · exact ⟨_, rest, hp, (not_wellFormed_iff _).mpr ⟨off, width, .inr ⟨w, rfl⟩, h⟩⟩

/-! No operation reads or writes the queue of operations to come (log 1). -/

/-- The state with another queue. -/
def withPending (p : List HostOp) (s : State) : State := { s with pending := p }

theorem withPending_complete_apply (p : List HostOp) (e : Effect) (s : State) :
    complete (e.apply (withPending p s)) = withPending p (complete (e.apply s)) := by
  cases e with
  | pixel b x y v | image b f => cases b <;> rfl
  | _ => rfl

theorem exec_withPending {i : Instr} {s t : State} (h : exec i s = .next t) (p : List HostOp) :
    exec i (withPending p s) = .next (withPending p t) := by
  have same : effectOf i (withPending p s) = effectOf i s := effectOf_congr i s s.status s.res0 s.res1 s.res2 p
  rcases exec_effect_cases h with ⟨e, he, rfl⟩ | ⟨k, hk, rfl⟩
  · rw [exec_of_effectOf_ok (same.trans he), withPending_complete_apply]
  · exact exec_of_effectOf_error (same.trans hk)

theorem issue_withPending {w : Word} {s t : State} (h : issue w s = .next t) (p : List HostOp) :
    issue w (withPending p s) = .next (withPending p t) := by
  unfold issue at h ⊢
  cases hd : decode w with
  | ok i =>
    rw [hd] at h
    exact exec_withPending h p
  | error e =>
    rw [hd] at h
    cases h
    rfl

theorem hostWrite_withPending {r : Reg} {w : Word} {s t : State} (h : hostWrite r w s = .next t) (p : List HostOp) :
    hostWrite r w (withPending p s) = .next (withPending p t) := by
  cases r with
  | cmd => exact issue_withPending h p
  | _ =>
    cases h
    rfl

theorem hostRead_withPending (r : Reg) (p : List HostOp) (s : State) :
    hostRead r (withPending p s) = withPending p (hostRead r s) := by
  cases r <;> rfl

theorem hostOp_withPending {op : HostOp} {s t : State} (h : hostOp op s = .next t) (p : List HostOp) :
    hostOp op (withPending p s) = .next (withPending p t) := by
  cases op with
  | read off width =>
    obtain ⟨r, ha, rfl⟩ := hostOp_read_cases h
    simp only [hostOp, ha, hostRead_withPending]
  | write off width w =>
    obtain ⟨r, ha, hw⟩ := hostOp_write_cases h
    simp only [hostOp, ha]
    exact hostWrite_withPending hw p
  | reset =>
    cases h
    rfl

/-- With its own queue put back a state is as before, so no operation changes the queue. -/
theorem hostOp_pending {op : HostOp} {s t : State} (h : hostOp op s = .next t) : t.pending = s.pending := by
  have again : hostOp op s = .next (withPending s.pending t) := hostOp_withPending h s.pending
  rw [h] at again
  have unchanged : t = withPending s.pending t := Host.Outcome.next.inj again
  rw [unchanged]
  rfl

/-- A step on a queue performs its head and leaves the tail. -/
theorem step_withPending_cons {op : HostOp} {s t : State} (h : hostOp op s = .next t) (rest : List HostOp) :
    step (withPending (op :: rest) s) = .next (withPending rest t) :=
  (step_cons rfl).trans (hostOp_withPending h rest)

/-! Runs. -/

theorem run_succ_of_step {M : Host.Core} {s t : M.State} (h : M.step s = .next t) (n : Nat) :
    M.run (n + 1) s = M.run n t := by
  rw [Host.Core.run, h]

/-- A step of a well-formed HOST answers a next state and leaves HOST well formed. -/
theorem step_of_hostOpsWellFormed {s : State} (h : hostOpsWellFormed s.pending = true) :
    ∃ t, step s = .next t ∧ hostOpsWellFormed t.pending = true := by
  cases hp : s.pending with
  | nil => exact ⟨s, step_nil hp, h⟩
  | cons op rest =>
    rw [hp, hostOpsWellFormed, List.all_cons, Bool.and_eq_true] at h
    obtain ⟨hop, hrest⟩ := h
    obtain ⟨t, ht⟩ := hostOp_isNext hop { s with pending := rest }
    have left : t.pending = rest := hostOp_pending ht
    exact ⟨t, (step_cons hp).trans ht, by rwa [left]⟩

/-- Settles O45, by induction on the number of steps. -/
theorem wellFormedHostIsNeverStopped : Obligations.WellFormedHostIsNeverStopped := by
  intro n
  induction n with
  | zero => exact fun s _ => ⟨s, rfl⟩
  | succ n ih =>
    intro s h
    obtain ⟨t, ht, hw⟩ := step_of_hostOpsWellFormed h
    obtain ⟨u, hu⟩ := ih t hw
    exact ⟨u, (run_succ_of_step (M := Sys2Proof.core) ht n).trans hu⟩

/-- Settles O46, by induction on the operations: a step performs the first one on whatever queue it stands in. -/
theorem runAppliesOperationsInOrder : Obligations.RunAppliesOperationsInOrder := by
  intro ops rest
  induction ops with
  | nil => exact fun s _ => ⟨_, rfl, rfl⟩
  | cons op ops ih =>
    intro s h
    rw [hostOpsWellFormed, List.all_cons, Bool.and_eq_true] at h
    obtain ⟨hop, hops⟩ := h
    obtain ⟨u, hu⟩ := hostOp_isNext hop s
    obtain ⟨t, ha, hr⟩ := ih u hops
    have first : hostOp op { s with pending := [] } = .next { u with pending := [] } := hostOp_withPending hu []
    refine ⟨t, ?_, ?_⟩
    · rw [applyOps, first]
      exact ha
    · have hs : Sys2Proof.core.step (withPending (op :: (ops ++ rest)) s) = .next (withPending (ops ++ rest) u) :=
        step_withPending_cons hu (ops ++ rest)
      exact (run_succ_of_step hs ops.length).trans hr

/-! One step, and the words that it decodes. -/

/-- Settles O5: a step performs the operation at the head of the queue, and a command's word at CMD runs the command. -/
theorem stepRunsTheDecodedCommand : Obligations.StepRunsTheDecodedCommand :=
  ⟨fun _ _ _ hp => step_cons hp, fun _ _ _ _ hp hd => (step_cons hp).trans (hostWrite_cmd_of_decode hd _)⟩

/-- Settles O6: the placed number is the command's own word, since a word has 32 bits. -/
theorem placedWordRunsNext : Obligations.PlacedWordRunsNext := by
  intro s i
  have word : BitVec.ofNat 32 ((encode i).toNat % 2 ^ 32) = encode i := by
    rw [Nat.mod_eq_of_lt (encode i).isLt, BitVec.ofNat_toNat, BitVec.setWidth_eq]
  rw [State.withFetchWord, word, step_cons rfl, hostOp_issueOp]
  exact hostWrite_cmd_of_decode (decode_encode i) s

/-- Settles O7: with an empty queue there is nothing to perform. -/
theorem noPendingOperationChangesNothing : Obligations.NoPendingOperationChangesNothing := fun _ => step_nil

/-- Settles O1: the six words are their commands' words, and the seventh has BUF set where no buffer is taken. -/
theorem writtenOutWordsDecode : Obligations.WrittenOutWordsDecode :=
  ⟨decode_encode .tobits, decode_encode .merge, decode_encode .embed, decode_encode (.reveal .img1),
    decode_encode (.getpixel .img0), decode_encode (.setpixel .img1), rfl⟩

end Sys2Proof.Machine

namespace Sys2Proof.Machine

/-! The registers as HOST reads and writes them (R155, R156). -/

theorem hostOp_read_regOffset (r : Reg) (s : State) : hostOp (.read (regOffset r) 32) s = .next (hostRead r s) := by
  simp only [hostOp, access_regOffset]

theorem hostOp_write_regOffset (r : Reg) (w : Word) (s : State) :
    hostOp (.write (regOffset r) 32 w) s = hostWrite r w s := by
  simp only [hostOp, access_regOffset]

theorem zext32_eq_ofNat {n : Nat} (v : BitVec n) : zext32 v = BitVec.ofNat 32 v.toNat := (BitVec.ofNat_toNat 32 v).symm

/-- CODE in bits 3:0 and STK in bit 8 do not overlap (R23). -/
theorem statusWord_eq_ofNat (st : Status) : statusWord st = BitVec.ofNat 32 (st.code.toNat + 256 * st.stk.toNat) := by
  have words : ∀ (code : BitVec 4) (stk : Bool),
      statusWord ⟨code, stk⟩ = BitVec.ofNat 32 (code.toNat + 256 * stk.toNat) := by decide
  exact words st.code st.stk

/-- BITS reads as the number of its bits, BITS[0] first (R30). -/
theorem zext32_fromBits (q : BitSeq) : zext32 (fromBits q) = BitVec.ofNat 32
    (128 * q[0].toNat + 64 * q[1].toNat + 32 * q[2].toNat + 16 * q[3].toNat +
      8 * q[4].toNat + 4 * q[5].toNat + 2 * q[6].toNat + q[7].toNat) := by
  rw [zext32_eq_ofNat, fromBits_toNat]

/-- Settles O10: each pair is the offset of a register and the word that it reads as. -/
theorem hostReadReturnsTheRegister : Obligations.HostReadReturnsTheRegister := by
  intro s off v h
  have named : ∃ r, off = regOffset r ∧ readReg r s = v := by
    simp only [List.mem_cons, Prod.mk.injEq, List.not_mem_nil, or_false] at h
    rcases h with ⟨rfl, rfl⟩ | ⟨rfl, rfl⟩ | ⟨rfl, rfl⟩ | ⟨rfl, rfl⟩ | ⟨rfl, rfl⟩ | ⟨rfl, rfl⟩ | ⟨rfl, rfl⟩ |
      ⟨rfl, rfl⟩ | ⟨rfl, rfl⟩ | ⟨rfl, rfl⟩ | ⟨rfl, rfl⟩ | ⟨rfl, rfl⟩ | ⟨rfl, rfl⟩ | ⟨rfl, rfl⟩ | ⟨rfl, rfl⟩ |
      ⟨rfl, rfl⟩
    · exact ⟨.cmd, rfl, rfl⟩
    · exact ⟨.status, rfl, statusWord_eq_ofNat s.status⟩
    · exact ⟨.arg0, rfl, rfl⟩
    · exact ⟨.arg1, rfl, rfl⟩
    · exact ⟨.arg2, rfl, rfl⟩
    · exact ⟨.argx, rfl, rfl⟩
    · exact ⟨.argy, rfl, rfl⟩
    · exact ⟨.res0, rfl, rfl⟩
    · exact ⟨.res1, rfl, rfl⟩
    · exact ⟨.res2, rfl, rfl⟩
    · exact ⟨.bits, rfl, zext32_fromBits s.bits⟩
    · exact ⟨.reserved, rfl, rfl⟩
    · exact ⟨.w0, rfl, zext32_eq_ofNat s.w0⟩
    · exact ⟨.h0, rfl, zext32_eq_ofNat s.h0⟩
    · exact ⟨.w1, rfl, zext32_eq_ofNat s.w1⟩
    · exact ⟨.h1, rfl, zext32_eq_ofNat s.h1⟩
  obtain ⟨r, rfl, rfl⟩ := named
  exact hostOp_read_regOffset r s

/-- A dimension register takes the low 31 bits of the word (R32). -/
theorem dimOfWord_eq_ofNat (w : Word) : dimOfWord w = BitVec.ofNat 31 (w.toNat % 2 ^ 31) := by
  apply BitVec.eq_of_toNat_eq
  rw [dimOfWord, BitVec.toNat_setWidth, BitVec.toNat_ofNat, Nat.mod_mod]

/-- BITS takes the low 8 bits of the word, the most significant first (R30). -/
theorem bitsOfWord_getElem_toNat (w : Word) (k : Nat) (h : k < 8) :
    (bitsOfWord w)[k].toNat = w.toNat / 2 ^ (7 - k) % 2 := by
  unfold bitsOfWord
  rw [toBits_getElem, bitOf_toNat, BitVec.toNat_setWidth]
  interval_cases k <;> omega

/-- After a dimension write the buffer's bytes are those of the draw taken (R53). -/
theorem byteAt_redrawBuffer_same (b : Buf) (s : State) (x y : Coord) (c : Chan) :
    byteAt (redrawBuffer b s) b x y c = chanOf (Config.pixRedraw s.redraws b x y) c := by
  rw [byteAt_redrawBuffer, if_pos rfl]

/-- Settles O11: an offset and a width name a register or are refused, and the register's write has its effect. -/
theorem hostWriteHasItsEffect : Obligations.HostWriteHasItsEffect := by
  intro s off wid w
  refine ⟨fun h => ?_, ?_⟩
  · exact hostOp_isRefused (op := .write off wid w) (mt (accessWellFormed_iff off wid).mp h) s
  rintro rfl
  refine ⟨?_, ?_, ?_, ?_, ?_, ?_, ?_, ?_, ?_, ?_, ?_, ?_⟩
  · rintro rfl
    exact ⟨fun i hd => hostWrite_cmd_of_decode hd s, fun he => hostWrite_cmd_of_illegal he s⟩
  · intro ignored
    simp only [List.mem_cons, List.not_mem_nil, or_false] at ignored
    rcases ignored with rfl | rfl | rfl | rfl | rfl
    · exact hostOp_write_regOffset .status w s
    · exact hostOp_write_regOffset .res0 w s
    · exact hostOp_write_regOffset .res1 w s
    · exact hostOp_write_regOffset .res2 w s
    · exact hostOp_write_regOffset .reserved w s
  · rintro rfl
    exact hostOp_write_regOffset .arg0 w s
  · rintro rfl
    exact hostOp_write_regOffset .arg1 w s
  · rintro rfl
    exact hostOp_write_regOffset .arg2 w s
  · rintro rfl
    exact hostOp_write_regOffset .argx w s
  · rintro rfl
    exact hostOp_write_regOffset .argy w s
  · rintro rfl
    exact ⟨_, hostOp_write_regOffset .bits w s, rfl, bitsOfWord_getElem_toNat w⟩
  all_goals
    rintro rfl
    rw [← dimOfWord_eq_ofNat]
  · exact ⟨_, hostOp_write_regOffset .w0 w s, rfl, byteAt_redrawBuffer_same .img0 _⟩
  · exact ⟨_, hostOp_write_regOffset .h0 w s, rfl, byteAt_redrawBuffer_same .img0 _⟩
  · exact ⟨_, hostOp_write_regOffset .w1 w s, rfl, byteAt_redrawBuffer_same .img1 _⟩
  · exact ⟨_, hostOp_write_regOffset .h1 w s, rfl, byteAt_redrawBuffer_same .img1 _⟩

/-! A dimension write (R53). -/

/-- A write to W[b] or H[b] draws buffer b anew, on a state with the same buffers and the same counter. -/
theorem hostWrite_dimension {b : Buf} {r : Reg} (hr : r = widthReg b ∨ r = heightReg b) (w : Word) (s : State) :
    ∃ u, hostWrite r w s = .next (redrawBuffer b u) ∧ u.redraws = s.redraws ∧ ∀ a, buffer u a = buffer s a := by
  rcases hr with rfl | rfl
  · cases b <;> exact ⟨_, rfl, rfl, fun a => by cases a <;> rfl⟩
  · cases b <;> exact ⟨_, rfl, rfl, fun a => by cases a <;> rfl⟩

/-- Settles O12: the draw that a dimension write takes is the next one, which no buffer holds. -/
theorem dimensionWriteRedrawsTheBuffer : Obligations.DimensionWriteRedrawsTheBuffer := by
  intro s b r w hd hr
  obtain ⟨u, hu, next, same⟩ := hostWrite_dimension hr w s
  have other {a : Buf} (hab : a ≠ b) : buffer (redrawBuffer b u) a = buffer s a := by
    rw [buffer_redrawBuffer, if_neg hab, same]
  refine ⟨_, hu, fun x y c => ?_, hd.fill_ne_next, fun a hab => ⟨other hab, byteAt_congr a (other hab)⟩⟩
  rw [byteAt_redrawBuffer_same, next]

/-! What a written register reads as, and every other (R27 to R32). -/

/-- Each register but CMD has storage of its own, or none. -/
theorem readReg_hostWrite_of_ne {r r' : Reg} {w : Word} {s t : State} (h : hostWrite r w s = .next t) (hr : r ≠ .cmd)
    (hne : r' ≠ r) : readReg r' t = readReg r' s := by
  cases r with
  | cmd => exact absurd rfl hr
  | _ =>
    cases h
    cases r' <;> simp [readReg] at hne ⊢

theorem zext32_dimOfWord_toNat (w : Word) : (zext32 (dimOfWord w)).toNat = w.toNat % 2 ^ 31 := by
  simp only [zext32, dimOfWord, BitVec.toNat_setWidth]
  omega

theorem zext32_fromBits_bitsOfWord_toNat (w : Word) : (zext32 (fromBits (bitsOfWord w))).toNat = w.toNat % 2 ^ 8 := by
  rw [bitsOfWord, fromBits_toBits, zext32, BitVec.toNat_setWidth, BitVec.toNat_setWidth]
  omega

/-- Settles O13: each register's write leaves the bits that it stores, and no other register reads differently. -/
theorem writtenRegisterReadsBack : Obligations.WrittenRegisterReadsBack := by
  intro s r w hr
  obtain ⟨t, ht⟩ := hostWrite_isNext r w s
  refine ⟨t, ht, fun operand => ?_, fun bits => ?_, fun dimension => ?_, fun ignored => ?_,
    fun r' hne => readReg_hostWrite_of_ne ht hr hne⟩
  · simp only [List.mem_cons, List.not_mem_nil, or_false] at operand
    rcases operand with rfl | rfl | rfl | rfl | rfl <;> cases ht <;> rfl
  · subst bits
    cases ht
    exact zext32_fromBits_bitsOfWord_toNat w
  · simp only [List.mem_cons, List.not_mem_nil, or_false] at dimension
    rcases dimension with rfl | rfl | rfl | rfl <;> cases ht <;> exact zext32_dimOfWord_toNat w
  · simp only [List.mem_cons, List.not_mem_nil, or_false] at ignored
    rcases ignored with rfl | rfl | rfl | rfl | rfl <;> cases ht <;> rfl

/-! The first commands after a reset (R201). -/

/-- An image of no pixels has no cell, so a write of it changes nothing. -/
theorem writeImage_reset (b : Buf) (f : Image) : writeImage b f State.reset = State.reset := by cases b <;> rfl

/-- Settles O44: at power-up both images are empty and every operand is 0. -/
theorem firstCommandsAfterReset : Obligations.FirstCommandsAfterReset := by
  refine ⟨?_, exec_of_not_argsInBounds (execBody_getpixel .img0 _) (by decide), ?_⟩
  · rw [exec_embed_of_eq ⟨rfl, rfl⟩, embedded, writeImage_reset]
    rfl
  · exact (lastThreeIsTheRemainderByEight.2 State.reset).1 (by decide)

end Sys2Proof.Machine
